-- ==== Sys2Proof/Word.lean ====
section
/-! DEFINITION. The word types of the STE2007 framer/encoder: bytes, groups of eight payload bytes, wire groups of nine octets (R8, R62). -/

namespace Sys2Proof

/-- A byte: 8 bits, bit 7 the most significant, unsigned (R8). -/
abbrev Byte := BitVec 8

/-- `chunk[0..7]`: the eight payload bytes of one group (R150, R152). -/
abbrev Chunk := Vector Byte 8

/-- Nine octets: the scratch buffer `BUF[0..8]` (R20) and the wire group `out[0..8]` in format `W72` (R86). -/
abbrev Octets := Vector Byte 9

/-- Nine zero bytes ("9 output bytes, all zero-initialized", R20). -/
def Octets.zero : Octets := Vector.replicate 9 0

/-- A selector bit as a byte, 0 or 1 (R85: false for commands, true for pixel data). -/
def selectorByte (dc : Bool) : Byte := if dc then 1 else 0

end Sys2Proof
end

