-- ==== Sys2Proof/Config.lean ====
section
/-! DEFINITION. What one block instance fixes (the parameters of R5 and R6), what its environment answers (R212), and the free values: constants without a body. -/

namespace Sys2Proof

/-- The command catalog `CAT`: fourteen fixed opcodes and six base opcodes, a parameter of the model (R5). -/
structure Catalog where
  opDisplayOn    : Byte
  opDisplayOff   : Byte
  opVideoNormal  : Byte
  opVideoInverse : Byte
  opAllpixNormal : Byte
  opAllpixOn     : Byte
  opSegNormal    : Byte
  opSegReverse   : Byte
  opComNormal    : Byte
  opComReverse   : Byte
  opPowerOn      : Byte
  opPowerOff     : Byte
  opSoftReset    : Byte
  opNop          : Byte
  baseRatio      : Byte
  baseEv         : Byte
  baseStartline  : Byte
  basePage       : Byte
  baseColMsb     : Byte
  baseColLsb     : Byte
  deriving DecidableEq, Repr

/-- The parameters of one block instance (R5, R6). They are fixed for the life of the instance (R27). -/
structure Params where
  cat               : Catalog
  hasResetLine      : Bool
  emptyWriteSelects : Bool
  width             : Nat
  height            : Nat
  deriving DecidableEq, Repr

/-- `FILLER = CAT.OP_NOP`, not an independent parameter (R6). -/
abbrev Params.filler (p : Params) : Byte := p.cat.opNop

/-- `FB_SIZE = (WIDTH × HEIGHT) / 8` (R6). -/
abbrev Params.fbSize (p : Params) : Nat := p.width * p.height / 8

/-- The transport's own error value: opaque to the block and passed on unchanged (R210, R215).
DESIGN CHOICE (log entry 18): the spec gives it no type; a number that no definition reads. -/
abbrev TransportError := Nat

/-- The transport's answer to one `Tx` (R212). -/
inductive Answer where
  | ok
  | fail (err : TransportError)
  deriving DecidableEq, Repr, Inhabited

/-- `CFG.rotation` holds 0 or 180 (R31). -/
inductive Rotation where
  | deg0
  | deg180
  deriving DecidableEq, Repr, Inhabited

/-- The Controller Session's stored configuration `CFG` (R31 to R34). -/
structure SessionConfig where
  rotation : Rotation
  inverse  : Bool
  contrast : BitVec 5
  ratio    : BitVec 3
  deriving DecidableEq, Repr, Inhabited

/-- FREE VALUE (log entry 3): the answer to the n-th `Tx` of a transport about which nothing is said (R212). -/
opaque Config.freeAnswer : Nat → Answer

/-- FREE VALUE (log entry 5): whether the block emits `Deselect` after a failed `Tx` (R220, U3). -/
opaque Config.deselectAfterFail : Nat → Bool

/-- FREE VALUE (log entry 27): what a read of the framebuffer at or beyond its length gives; only the pixel
formula of a height that is no multiple of 8 asks for it (R53, N9). -/
opaque Config.byteBeyondFramebuffer : Nat → Byte

/-- FREE VALUE (log entry 8): `DC` after a block reset (R21, R240, U1). -/
opaque Config.dcAfterReset : Nat → Bool

/-- FREE VALUE (log entry 8): `CFG` after session construction (R242, U2). -/
opaque Config.cfgAtConstruction : Nat → SessionConfig

end Sys2Proof
end

