-- ==== Sys2Proof/Machine/Parameters.lean ====
section
/-! DEFINITION. The parameter instance that State.reset carries, and the default catalog of R5. Claims are made over every instance. -/

namespace Sys2Proof.Machine

/-- The default catalog (the table of R5).
PRESUMED (log entry 2): the spec marks every value as general knowledge, not in source (G1). -/
def defaultCatalog : Catalog where
  opDisplayOn    := 0xAF
  opDisplayOff   := 0xAE
  opVideoNormal  := 0xA6
  opVideoInverse := 0xA7
  opAllpixNormal := 0xA4
  opAllpixOn     := 0xA5
  opSegNormal    := 0xA0
  opSegReverse   := 0xA1
  opComNormal    := 0xC0
  opComReverse   := 0xC8
  opPowerOn      := 0x2F
  opPowerOff     := 0x28
  opSoftReset    := 0xE2
  opNop          := 0xE3
  baseRatio      := 0x20
  baseEv         := 0x80
  baseStartline  := 0x40
  basePage       := 0xB0
  baseColMsb     := 0x10
  baseColLsb     := 0x00

/-- The instance of State.reset. DESIGN CHOICE (log entry 2): the spec leaves the reset line, the
empty write and the geometry open; these are the settings of its programs P1, P3 and P5. -/
def defaultParams : Params where
  cat := defaultCatalog
  hasResetLine := true
  emptyWriteSelects := false
  width := 16
  height := 8

end Sys2Proof.Machine
end

