-- ==== Sys2Proof/Syntax.lean ====
section
/-! DEFINITION. The operations of the block and of its host layer: one constructor per row of spec/opcode_table.json (R94). -/

namespace Sys2Proof

/-- An operation the host can present. Encoder parameters are natural numbers of any size (R88, D9);
the encoder cuts them by a mask (R91). -/
inductive Instr where
  -- group E, the command encoder, format CF0 (R111 to R124)
  | dispon
  | dispoff
  | vidnorm
  | vidinv
  | allnorm
  | allon
  | segnorm
  | segrev
  | comnorm
  | comrev
  | pwron
  | pwroff
  | swreset
  | nop
  -- group E, field-encoded commands (R125 to R130)
  | ratio (r : Nat)
  | ev (c : Nat)
  | page (p : Nat)
  | colmsb (c : Nat)
  | collsb (c : Nat)
  | startline (l : Nat)
  -- group F, the framer port (R156 to R158)
  | beginWrite (dc : Bool)
  | byte (d : Byte)
  | endWrite
  -- group P, the composite write and the host layer's pseudo-operations (R159, R184 to R197)
  | write (dc : Bool) (p : List Byte)
  | sessionReset
  | sessionInitialize (rotation : Nat) (inverse : Bool) (contrast : Nat) (ratio : Nat)
  | setContrast (level : Nat)
  | setInversion (flag : Bool)
  | setRotation (rotation : Nat)
  | sleep (enable : Bool)
  | refresh (framebuffer : List Byte)
  deriving DecidableEq, Repr

end Sys2Proof
end

