-- ==== Sys2Proof/Decode.lean ====
section
/-! DEFINITION. The ports (R88, R89), the total decoder of port words, the encoder of operations into port words, and the reading of spec/opcode_table.json's words. -/

namespace Sys2Proof

/-- How the host presents an operation (R88, R89, R99). -/
inductive PortWord where
  /-- The encoder's port: the operation index `ESEL` and the parameter `EPARAM` (R88). -/
  | encoder (esel : BitVec 5) (eparam : Nat)
  /-- The framer's port word `FP[11:0]` (R89). -/
  | framer (fp : BitVec 12)
  /-- An operation presented by name: WRITE and the pseudo-operations have no bit pattern (R94, R99), and
  an enumerated operation needs no port word (R88, R89). -/
  | operation (i : Instr)
  deriving DecidableEq, Repr

/-- Why a port word selects no operation (R96). -/
inductive Unassigned where
  /-- `ESEL` 20 to 31 (R96 (b)). -/
  | encoderIndex (esel : BitVec 5)
  /-- More than one strobe set (R96 (c)). -/
  | framerStrobes (fp : BitVec 12)
  deriving DecidableEq, Repr

/-- What a port word presents. -/
inductive Decoded where
  | operation (i : Instr)
  /-- `FP = 0 0 0 x...` presents no operation (R89). -/
  | nothing
  | unassigned (why : Unassigned)
  deriving DecidableEq, Repr

/-- The encoder port (R88). -/
def decodeEncoder (esel : BitVec 5) (eparam : Nat) : Decoded :=
  match esel.toNat with
  | 0 => .operation .dispon
  | 1 => .operation .dispoff
  | 2 => .operation .vidnorm
  | 3 => .operation .vidinv
  | 4 => .operation .allnorm
  | 5 => .operation .allon
  | 6 => .operation .segnorm
  | 7 => .operation .segrev
  | 8 => .operation .comnorm
  | 9 => .operation .comrev
  | 10 => .operation .pwron
  | 11 => .operation .pwroff
  | 12 => .operation .swreset
  | 13 => .operation .nop
  | 14 => .operation (.ratio eparam)
  | 15 => .operation (.ev eparam)
  | 16 => .operation (.page eparam)
  | 17 => .operation (.colmsb eparam)
  | 18 => .operation (.collsb eparam)
  | 19 => .operation (.startline eparam)
  | _ => .unassigned (.encoderIndex esel)

/-- The framer port (R89): strobes begin, byte, end in bits 11, 10, 9; `dc` in bit 8; `d` in bits 7 to 0. -/
def decodeFramer (fp : BitVec 12) : Decoded :=
  match fp.getLsbD 11, fp.getLsbD 10, fp.getLsbD 9 with
  | true, false, false => .operation (.beginWrite (fp.getLsbD 8))
  | false, true, false => .operation (.byte (fp.extractLsb' 0 8))
  | false, false, true => .operation .endWrite
  | false, false, false => .nothing
  | _, _, _ => .unassigned (.framerStrobes fp)

/-- The decoder: total on every port word. -/
def decode : PortWord → Decoded
  | .encoder esel eparam => decodeEncoder esel eparam
  | .framer fp => decodeFramer fp
  | .operation i => .operation i

/-- The framer port word with the given fields, ignored bits 0 (R89). -/
def framerWord (strobes : BitVec 3) (dc : Bool) (d : Byte) : BitVec 12 := strobes ++ BitVec.ofBool dc ++ d

/-- The port word that presents an operation (R88, R89); group P goes by name. -/
def encode : Instr → PortWord
  | .dispon => .encoder 0 0
  | .dispoff => .encoder 1 0
  | .vidnorm => .encoder 2 0
  | .vidinv => .encoder 3 0
  | .allnorm => .encoder 4 0
  | .allon => .encoder 5 0
  | .segnorm => .encoder 6 0
  | .segrev => .encoder 7 0
  | .comnorm => .encoder 8 0
  | .comrev => .encoder 9 0
  | .pwron => .encoder 10 0
  | .pwroff => .encoder 11 0
  | .swreset => .encoder 12 0
  | .nop => .encoder 13 0
  | .ratio r => .encoder 14 r
  | .ev c => .encoder 15 c
  | .page p => .encoder 16 p
  | .colmsb c => .encoder 17 c
  | .collsb c => .encoder 18 c
  | .startline l => .encoder 19 l
  | .beginWrite dc => .framer (framerWord 0b100 dc 0)
  | .byte d => .framer (framerWord 0b010 false d)
  | .endWrite => .framer (framerWord 0b001 false 0)
  | .write dc p => .operation (.write dc p)
  | .sessionReset => .operation .sessionReset
  | .sessionInitialize rotation inverse contrast ratio => .operation (.sessionInitialize rotation inverse contrast ratio)
  | .setContrast level => .operation (.setContrast level)
  | .setInversion flag => .operation (.setInversion flag)
  | .setRotation rotation => .operation (.setRotation rotation)
  | .sleep enable => .operation (.sleep enable)
  | .refresh framebuffer => .operation (.refresh framebuffer)

/-- One row of the opcode map of group E (R94): a command byte `b` with `b & mask = base` carries the field
`b & ~mask`. -/
structure CommandRow where
  mask  : Byte
  base  : Byte
  build : Nat → Instr

/-- The opcode map of group E over a catalog (R94), in the table's order. -/
def commandRows (cat : Catalog) : List CommandRow :=
  [⟨0xFF, cat.opDisplayOn, fun _ => .dispon⟩, ⟨0xFF, cat.opDisplayOff, fun _ => .dispoff⟩,
   ⟨0xFF, cat.opVideoNormal, fun _ => .vidnorm⟩, ⟨0xFF, cat.opVideoInverse, fun _ => .vidinv⟩,
   ⟨0xFF, cat.opAllpixNormal, fun _ => .allnorm⟩, ⟨0xFF, cat.opAllpixOn, fun _ => .allon⟩,
   ⟨0xFF, cat.opSegNormal, fun _ => .segnorm⟩, ⟨0xFF, cat.opSegReverse, fun _ => .segrev⟩,
   ⟨0xFF, cat.opComNormal, fun _ => .comnorm⟩, ⟨0xFF, cat.opComReverse, fun _ => .comrev⟩,
   ⟨0xFF, cat.opPowerOn, fun _ => .pwron⟩, ⟨0xFF, cat.opPowerOff, fun _ => .pwroff⟩,
   ⟨0xFF, cat.opSoftReset, fun _ => .swreset⟩, ⟨0xFF, cat.opNop, fun _ => .nop⟩]
  ++
  [⟨0xF8, cat.baseRatio, fun f => .ratio f⟩, ⟨0xE0, cat.baseEv, fun f => .ev f⟩,
   ⟨0xF0, cat.basePage, fun f => .page f⟩, ⟨0xF8, cat.baseColMsb, fun f => .colmsb (16 * f)⟩,
   ⟨0xF0, cat.baseColLsb, fun f => .collsb f⟩, ⟨0xC0, cat.baseStartline, fun f => .startline f⟩]

/-- The encoder operation, with its parameter cut to the field, whose command byte is `b` (R132, R94). The
block has no such decoder (R96 (a)): it serves to read the table's rows, which name an encoder operation by
the byte it produces (log entry 12). COLMSB's field is bits 6 to 4 of the column (R128). -/
def readCommandByte (cat : Catalog) (b : Byte) : Option Instr :=
  ((commandRows cat).find? fun r => b &&& r.mask == r.base).map fun r => r.build (b &&& ~~~r.mask).toNat

/-- The port word that a word of spec/opcode_table.json stands for: 8 bits are the command byte of a group E
row under the default catalog, 12 bits in two bytes (the upper four bits 0) a framer port word; no other
row has bits. -/
def tablePortWord (nbits w : Nat) : Option PortWord :=
  if nbits = 8 then
    if w < 256 then (readCommandByte Machine.defaultCatalog (BitVec.ofNat 8 w)).map encode else none
  else if nbits = 16 then
    if w < 4096 then some (.framer (BitVec.ofNat 12 w)) else none
  else none

/-- The operation the decoder reads from a word of spec/opcode_table.json. -/
def decodeTableWord (nbits w : Nat) : Option Instr :=
  match (tablePortWord nbits w).map decode with
  | some (.operation i) => some i
  | some .nothing => none
  | some (.unassigned _) => none
  | none => none

end Sys2Proof
end

