-- ==== Sys2Proof/Machine/State.lean ====
section
/-! DEFINITION. The state of the block, its host layer and its boundary, as plain data (10_state.md), and the state after reset (R240, R242). -/

namespace Sys2Proof.Machine

/-- `PHASE` (R22). -/
inductive Phase where
  | idle
  | active
  deriving DecidableEq, Repr

/-- `SESSION` (R30). -/
inductive Session where
  | unconfigured
  | reset
  | initializing
  | operating
  | sleeping
  deriving DecidableEq, Repr

/-- The level of an output line (R11). -/
inductive Level where
  | low
  | high
  deriving DecidableEq, Repr

/-- An event of the output trace (R11). -/
inductive Event where
  | select
  | deselect
  | tx (group : Octets)
  | resetLine (level : Level)
  /-- A real delay of at least `minUs` microseconds (R260, D23). -/
  | wait (minUs : Nat)
  deriving DecidableEq, Repr

/-- Which misuse of a port `E_PROTOCOL` reports (R210, R214). -/
inductive ProtocolCause where
  | beginWhileActive
  | byteWhileIdle
  | endWhileIdle
  | unassigned (why : Unassigned)
  deriving DecidableEq, Repr

/-- The names of the host layer's operations, which `E_INVALID_STATE` carries (R210) and R182 tabulates. -/
inductive SessionOp where
  | opReset
  | opInitialize
  | opSetContrast
  | opSetInversion
  | opSetRotation
  | opSleep (enable : Bool)
  | opRefresh
  deriving DecidableEq, Repr

/-- A fault that an operation returns to its caller, with its information (R210). It does not stop the
machine: the caller may present the next operation (R222, D30). -/
inductive OpFault where
  | eTransport (err : TransportError)
  | eInvalidState (op : SessionOp) (session : Session)
  | eProtocol (cause : ProtocolCause)
  deriving DecidableEq, Repr

/-- What an operation returns to its caller: nothing but its completion, the command byte of an encoder
operation (R110), or a fault (R210). -/
inductive Reply where
  | done
  | byte (b : Byte)
  | fault (f : OpFault)
  deriving DecidableEq, Repr

/-- What the transport answers when its script is used up (log entry 3). -/
inductive Afterwards where
  /-- It never answers again (R68, R262, U11). -/
  | never
  /-- It gives the same answer to every `Tx`. -/
  | always (a : Answer)
  /-- It gives free answers, about which nothing can be proved. -/
  | free
  deriving DecidableEq, Repr

/-- The environment's answers to the coming `Tx` events (R212): the script first, then `afterwards`.
`answered` counts the answers given and selects the free ones. -/
structure Transport where
  script     : List Answer
  afterwards : Afterwards
  answered   : Nat
  deriving DecidableEq, Repr

/-- What the outside world presents next: a port word (R88, R89), a block reset (R240), or the construction
of the session (R242). -/
inductive HostAction where
  | port (w : PortWord)
  | blockReset
  | constructSession
  deriving DecidableEq, Repr

/-- The whole machine. -/
structure State where
  /-- The parameters of the instance (R5, R6): fixed for its life and not state of the block (R27, log entry 1). -/
  params    : Params
  /-- `BUF[0..8]` (R20). -/
  buf       : Octets
  /-- `DC` (R21). -/
  dc        : Bool
  /-- `PHASE` (R22). -/
  phase     : Phase
  /-- `CNT`, 3 bits (R23). -/
  cnt       : Fin 8
  /-- `SEL` (R24). -/
  sel       : Bool
  /-- `SESSION` (R30). -/
  session   : Session
  /-- `CFG` (R31 to R34). -/
  cfg       : SessionConfig
  /-- The output trace (R11), oldest event first. -/
  trace     : List Event
  /-- What each operation returned to its caller (R26, R210), oldest first (log entry 10). -/
  replies   : List Reply
  /-- The operations the host has still to present (R25, R100), next one first (log entry 11). -/
  presented : List HostAction
  /-- The environment's answers (R212). -/
  transport : Transport
  /-- The model's own counter of free values taken (log entry 24). -/
  freeCount : Nat
  deriving DecidableEq, Repr

/-- Why the machine is stuck. -/
inductive Fault where
  /-- Raised by an operation whose `Tx` the transport never answers: "the block has no step while a `Tx` is
  unanswered" (R68, R262, U11). Safe: the hardware blocks there for ever. -/
  | transportUnanswered
  deriving DecidableEq, Repr

/-- Why an operation has no meaning. -/
inductive Refusal where
  /-- Raised by the dispatcher for an operation without a meaning. Safe: nothing can be proved of it. -/
  | notModelled (mnemonic : String)
  deriving DecidableEq, Repr

/-- The transport of State.reset: free answers (log entry 3). -/
def Transport.reset : Transport := { script := [], afterwards := .free, answered := 0 }

/-- `CFG` of State.reset. DESIGN CHOICE (log entry 7): the spec leaves it unspecified (R31 to R34). -/
def resetConfig : SessionConfig := { rotation := .deg0, inverse := false, contrast := 0, ratio := 0 }

/-- The state after block reset (R240) and session construction (R242) of an instance with parameters `p`.
DESIGN CHOICE (log entries 6 and 7): `dc` and `cfg`, which the spec leaves unspecified. -/
def State.resetWith (p : Params) : State where
  params := p
  buf := Octets.zero
  dc := false
  phase := .idle
  cnt := 0
  sel := false
  session := .unconfigured
  cfg := resetConfig
  trace := []
  replies := []
  presented := []
  transport := Transport.reset
  freeCount := 0

/-- The machine right after reset, with the parameters of log entry 2. -/
def State.reset : State := State.resetWith defaultParams

end Sys2Proof.Machine
end

