-- ==== Sys2Proof/Machine/Flags.lean ====
section
/-! DEFINITION. The block has no flags (R26): the outcome of an operation is returned with it. This file holds what is computed of an outcome: its fault and the fault's code (R210). -/

namespace Sys2Proof.Machine

/-- The code of a fault (R210, D7). -/
def OpFault.code : OpFault → Nat
  | .eTransport _ => 1
  | .eInvalidState _ _ => 2
  | .eProtocol _ => 3

/-- The fault a reply carries, if any. -/
def Reply.fault? : Reply → Option OpFault
  | .done => none
  | .byte _ => none
  | .fault f => some f

end Sys2Proof.Machine
end

