-- ==== Sys2Proof/Machine/Operands.lean ====
section
/-! DEFINITION. Operand assembly: the masks of the encoder's parameters (R91, R92), the selection of opcodes by the host layer's operands (R93), and the framebuffer operand of refresh (R53, R54). -/

namespace Sys2Proof.Machine

/-- A field command: base OR (parameter AND mask), on 8 bits (R82). -/
def fieldCommand (base : Byte) (mask p : Nat) : Byte := base ||| BitVec.ofNat 8 (p &&& mask)

/-- `CFG.ratio` as stored: the ratio cut to 3 bits (R34). -/
def ratioField (r : Nat) : BitVec 3 := BitVec.ofNat 3 (r &&& 0x07)

/-- `CFG.contrast` as stored: the level cut to 5 bits (R33). -/
def contrastField (c : Nat) : BitVec 5 := BitVec.ofNat 5 (c &&& 0x1F)

/-- The bits of the column that COLMSB carries, before its mask: `col >> 4` (R92). -/
def columnHigh (c : Nat) : Nat := c >>> 4

/-- `CFG.rotation` as stored: 180 if the argument is 180, else 0 (R31, R93). -/
def rotationField (rotation : Nat) : Rotation := if rotation = 180 then .deg180 else .deg0

/-- `MemRead(k, 1)` of the framebuffer (R10, R54). `refresh` reads below the length only; `pixel` of a geometry
whose height is no multiple of 8 may ask for a byte at or beyond it, which the spec does not address (R53, N9):
there the value is free (DESIGN CHOICE, log entry 27). -/
def memRead (framebuffer : List Byte) (k : Nat) : Byte := framebuffer.getD k (Config.byteBeyondFramebuffer k)

/-- The payload of refresh's data write: every byte once, in ascending index order (R54, R197). -/
def framebufferPayload (framebuffer : List Byte) : List Byte :=
  (List.range framebuffer.length).map (memRead framebuffer)

/-- The byte index of pixel (x, y) (R53). -/
def pixelIndex (p : Params) (x y : Nat) : Nat := x + y / 8 * p.width

/-- The pixel (x, y): bit `y % 8` of its byte, bit 0 the top row of the band (R53); a free value where
the formula leaves the framebuffer (log entry 27). -/
def pixel (p : Params) (framebuffer : List Byte) (x y : Nat) : Bool :=
  (memRead framebuffer (pixelIndex p x y)).getLsbD (y % 8)

end Sys2Proof.Machine
end

