-- ==== Sys2Proof/Machine/Packing.lean ====
section
/-! DEFINITION. The pure functions of the framer: PackGroup, Chunk, Frame, UnpackGroup (R150 to R160), and the closed formulas and bit maps the spec gives for them (R57, R86, R87). -/

namespace Sys2Proof.Machine

/-- `out[i] <- out[i] | v`. -/
def orAt (out : Octets) (i : Fin 9) (v : Byte) : Octets := out.set i (out[i] ||| v)

/-- The selector step of slot `i`: the selector bit at bit position 7-i of `out[i]` (R150). -/
def selectorStep (dc : Bool) (i : Fin 8) (out : Octets) : Octets := orAt out i.castSucc (selectorByte dc <<< (7 - i.val))

/-- The split step of slot `i` (R150): the high bits of `d` into the low bits of `out[i]`, the low i+1 bits
into the top of `out[i+1]`. The left shift on 8 bits drops what the spec's `& 0xFF` drops (D22, log entry 19). -/
def splitStep (i : Fin 8) (d : Byte) (out : Octets) : Octets :=
  orAt (orAt out i.castSucc (d >>> (i.val + 1))) i.succ (d <<< (7 - i.val))

/-- Slot `i` of a group, taken alone (R150; the body of BYTE, R157): the selector step, then the split for
slots 0 to 6 and the whole byte into `out[8]` for slot 7. -/
def packSlot (dc : Bool) (i : Fin 8) (d : Byte) (out : Octets) : Octets :=
  if i.val ≤ 6 then splitStep i d (selectorStep dc i out) else (selectorStep dc i out).set 8 d

/-- `PackGroup(dc, chunk)` (R150): the slots 0 to 7 in turn, from nine zero bytes. -/
def packGroup (dc : Bool) (chunk : Chunk) : Octets :=
  (List.finRange 8).foldl (fun out i => packSlot dc i chunk[i] out) Octets.zero

/-- Octet `k` of a wire group by the closed formulas of R87. -/
def closedOctet (dc : Bool) (chunk : Chunk) (k : Fin 9) : Byte :=
  if k = 0 then selectorByte dc <<< 7 ||| chunk[0] >>> 1
  else if h : k.val ≤ 7 then
    chunk[k.val - 1] <<< (8 - k.val) ||| selectorByte dc <<< (7 - k.val) ||| chunk[k.val] >>> (k.val + 1)
  else chunk[7]

/-- The bits of a byte, most significant first (R8). -/
def bitsMsbFirst (b : Byte) : List Bool := (List.range 8).map fun k => b.getLsbD (7 - k)

/-- The 72 bits of a wire group in wire order (R57). -/
def wireBits (out : Octets) : List Bool := out.toList.flatMap bitsMsbFirst

/-- The eight tagged bytes of a group end to end, each its selector bit and then its payload bits, most
significant first (R57, R85). -/
def taggedBits (dc : Bool) (chunk : Chunk) : List Bool := chunk.toList.flatMap fun c => dc :: bitsMsbFirst c

/-- `ceil(L / 8)`, the number of groups of a payload of `L` bytes (R52). -/
def groupCount (len : Nat) : Nat := (len + 7) / 8

/-- `Chunk(p, L, g)` (R152): missing entries are the filler. -/
def chunkOf (filler : Byte) (p : List Byte) (g : Nat) : Chunk :=
  Vector.ofFn fun j : Fin 8 => p.getD (8 * g + j.val) filler

/-- `Frame(dc, p)` (R153). -/
def frame (filler : Byte) (dc : Bool) (p : List Byte) : List Octets :=
  (List.range (groupCount p.length)).map fun g => packGroup dc (chunkOf filler p g)

/-- `sel[i]` of `UnpackGroup(out)` (R160). -/
def unpackSelector (out : Octets) (i : Fin 8) : Bool := out[i.castSucc].getLsbD (7 - i.val)

/-- `chunk[i]` of `UnpackGroup(out)` (R160). -/
def unpackByte (out : Octets) (i : Fin 8) : Byte := out[i.castSucc] <<< (i.val + 1) ||| out[i.succ] >>> (7 - i.val)

/-- `UnpackGroup(out)` (R160): not part of the block; the receiving side's reading of a group. -/
def unpackGroup (out : Octets) : Vector Bool 8 × Chunk := (Vector.ofFn (unpackSelector out), Vector.ofFn (unpackByte out))

end Sys2Proof.Machine
end

