-- ==== Sys2Proof/Machine/Ops.lean ====
section
/-! DEFINITION. The shared operations: events and replies, the transport's answer, the framer's port operations and TransportFail (R156 to R159, R219), the common shape of the host layer's operations (R183, R221), block reset (R240) and session construction (R242). -/

namespace Sys2Proof.Machine

/-- `emit E` (R10): append an event to the output trace. -/
def State.emit (s : State) (e : Event) : State := { s with trace := s.trace ++ [e] }

/-- Return an operation's outcome to its caller (R26, R210). -/
def State.reply (s : State) (r : Reply) : State := { s with replies := s.replies ++ [r] }

/-- The transport's answer to the next `Tx`, and the transport after it; none if it never answers (R212, R68). -/
def Transport.next (t : Transport) : Option (Answer × Transport) :=
  match t.script with
  | a :: rest => some (a, { t with script := rest, answered := t.answered + 1 })
  | [] =>
    match t.afterwards with
    | .never => none
    | .always a => some (a, { t with answered := t.answered + 1 })
    | .free => some (Config.freeAnswer t.answered, { t with answered := t.answered + 1 })

/-- How a part of an operation ends: done, a fault raised in a state, or a `Tx` that is never answered. -/
inductive Ran where
  | done (s : State)
  | raised (f : OpFault) (s : State)
  | unanswered
  deriving DecidableEq, Repr

/-- Go on with the next part; a fault ends the operation (R218, R223). -/
def Ran.andThen (r : Ran) (k : State → Ran) : Ran :=
  match r with
  | .done s => k s
  | .raised f s => .raised f s
  | .unanswered => .unanswered

/-- The end of an operation: its outcome goes to the caller, and the machine goes on (R210, D30); a `Tx`
that is never answered leaves it stuck (R68). -/
def Ran.finish : Ran → Host.Outcome State Fault Refusal
  | .done s => .next (s.reply .done)
  | .raised f s => .next (s.reply (.fault f))
  | .unanswered => .fault .transportUnanswered

/-- The optional `Deselect` of a failed write: a free value decides (R220, log entry 5). -/
def optionalDeselect (s : State) : State :=
  { s with trace := s.trace ++ if Config.deselectAfterFail s.freeCount then [.deselect] else [] }

/-- `TransportFail()` (R219): the group is discarded, the write abandoned, `E_TRANSPORT` raised. -/
def transportFail (err : TransportError) (s : State) : Ran :=
  .raised (.eTransport err)
    { optionalDeselect { s with buf := Octets.zero, cnt := 0, phase := .idle } with
      sel := false, freeCount := s.freeCount + 1 }

/-- Hand the completed group to the transport (R157, the part from `emit Tx` on). -/
def transmitGroup (s : State) : Ran :=
  match s.transport.next with
  | none => .unanswered
  | some (.ok, t) => .done { s.emit (.tx s.buf) with transport := t, buf := Octets.zero, cnt := 0 }
  | some (.fail err, t) => transportFail err { s.emit (.tx s.buf) with transport := t }

/-- The body of BYTE from `i <- CNT` on (R157). -/
def packByte (d : Byte) (s : State) : Ran :=
  if s.cnt.val ≤ 6 then .done { s with buf := packSlot s.dc s.cnt d s.buf, cnt := s.cnt + 1 }
  else transmitGroup { s with buf := packSlot s.dc s.cnt d s.buf }

/-- Assert chip-select unless this write has done so (R157). -/
def State.assertSelect (s : State) : State := if s.sel then s else { s.emit .select with sel := true }

/-- Release chip-select if this write has asserted it (R158). -/
def State.releaseSelect (s : State) : State := if s.sel then { s.emit .deselect with sel := false } else s

/-- BEGIN (R156). -/
def beginPort (dc : Bool) (s : State) : Ran :=
  if s.phase = .idle then
    let t := { s with phase := .active, dc := dc, cnt := 0, buf := Octets.zero, sel := false }
    .done (if s.params.emptyWriteSelects then t.assertSelect else t)
  else .raised (.eProtocol .beginWhileActive) s

/-- BYTE (R157). -/
def bytePort (d : Byte) (s : State) : Ran :=
  if s.phase = .active then packByte d s.assertSelect
  else .raised (.eProtocol .byteWhileIdle) s

/-- The loop of END, `while CNT != 0` (R158), with the number of rounds bounded by `fuel`; eight rounds
are enough, since CNT wraps to 0 (R23). -/
def padGroup : Nat → State → Ran
  | 0, s => .done s
  | fuel + 1, s => if s.cnt = 0 then .done s else (packByte s.params.filler s).andThen (padGroup fuel)

/-- END (R158). -/
def endPort (s : State) : Ran :=
  if s.phase = .active then
    (padGroup 8 s).andThen fun t => .done { t.releaseSelect with phase := .idle }
  else .raised (.eProtocol .endWhileIdle) s

/-- The BYTEs of a logical write (R159). -/
def bytesPort : List Byte → State → Ran
  | [], s => .done s
  | d :: p, s => (bytePort d s).andThen (bytesPort p)

/-- WRITE (R159): BEGIN, the BYTEs, END, cut short at the first fault. -/
def logicalWrite (dc : Bool) (p : List Byte) (s : State) : Ran :=
  ((beginPort dc s).andThen (bytesPort p)).andThen endPort

/-- The logical writes of one pseudo-operation, in order (R183 (3), (4)). -/
def logicalWrites : List (Bool × List Byte) → State → Ran
  | [], s => .done s
  | (dc, p) :: rest, s => (logicalWrite dc p s).andThen (logicalWrites rest)

/-- Which operation may be presented in which session state (R182). `initializing` is held only inside
initialize (R30); what it would allow is log entry 14. -/
def validIn : SessionOp → Session → Bool
  | .opReset, _ => true
  | .opInitialize, .reset => true
  | .opInitialize, .operating => true
  | .opInitialize, .unconfigured => false
  | .opInitialize, .sleeping => false
  | .opInitialize, .initializing => false
  | .opSetContrast, x => x == .operating
  | .opSetInversion, x => x == .operating
  | .opSetRotation, x => x == .operating
  | .opSleep _, x => x == .operating || x == .sleeping
  | .opRefresh, x => x == .operating

/-- The common shape of the pseudo-operations (R183): the state check (R213), the work, then the update of
`CFG` and `SESSION`. A failed transmit unconfigures the session (R221); `E_PROTOCOL` is passed upward and
leaves `SESSION` as it was (R218, log entry 13). -/
def sessionOperation (op : SessionOp) (work : State → Ran) (update : State → State) (s : State) : Ran :=
  if validIn op s.session then
    match work s with
    | .done t => .done (update t)
    | .raised (.eTransport err) t => .raised (.eTransport err) { t with session := .unconfigured }
    | .raised (.eProtocol cause) t => .raised (.eProtocol cause) { t with session := s.session }
    | .raised (.eInvalidState o x) t => .raised (.eInvalidState o x) { t with session := s.session }
    | .unanswered => .unanswered
  else .raised (.eInvalidState op s.session) s

/-- The reset-line pulse of reset() (R184): low, wait, high, wait. -/
def pulseResetLine (s : State) : State :=
  if s.params.hasResetLine then
    (((s.emit (.resetLine .low)).emit (.wait 5)).emit (.resetLine .high)).emit (.wait 5)
  else s

/-- Block reset (R240): emits nothing and leaves the host layer alone; `DC` is a free value (log entry 8). -/
def blockReset (s : State) : State :=
  { s with phase := .idle, cnt := 0, buf := Octets.zero, sel := false,
           dc := Config.dcAfterReset s.freeCount, freeCount := s.freeCount + 1 }

/-- Session construction (R242): `CFG` is a free value (log entry 8). -/
def constructSession (s : State) : State :=
  { s with session := .unconfigured, cfg := Config.cfgAtConstruction s.freeCount, freeCount := s.freeCount + 1 }

end Sys2Proof.Machine
end

