-- ==== Sys2Proof/Machine/Encoder.lean ====
section
/-! DEFINITION. The command encoder, one command byte and one meaning per operation (40_command_encoder.md). -/

namespace Sys2Proof.Machine

/-- The byte of DISPON (R111). -/
def byteDispon (cat : Catalog) : Byte := cat.opDisplayOn
/-- The byte of DISPOFF (R112). -/
def byteDispoff (cat : Catalog) : Byte := cat.opDisplayOff
/-- The byte of VIDNORM (R113). -/
def byteVidnorm (cat : Catalog) : Byte := cat.opVideoNormal
/-- The byte of VIDINV (R114). -/
def byteVidinv (cat : Catalog) : Byte := cat.opVideoInverse
/-- The byte of ALLNORM (R115). -/
def byteAllnorm (cat : Catalog) : Byte := cat.opAllpixNormal
/-- The byte of ALLON (R116). -/
def byteAllon (cat : Catalog) : Byte := cat.opAllpixOn
/-- The byte of SEGNORM (R117). -/
def byteSegnorm (cat : Catalog) : Byte := cat.opSegNormal
/-- The byte of SEGREV (R118). -/
def byteSegrev (cat : Catalog) : Byte := cat.opSegReverse
/-- The byte of COMNORM (R119). -/
def byteComnorm (cat : Catalog) : Byte := cat.opComNormal
/-- The byte of COMREV (R120). -/
def byteComrev (cat : Catalog) : Byte := cat.opComReverse
/-- The byte of PWRON (R121). -/
def bytePwron (cat : Catalog) : Byte := cat.opPowerOn
/-- The byte of PWROFF (R122). -/
def bytePwroff (cat : Catalog) : Byte := cat.opPowerOff
/-- The byte of SWRESET (R123). -/
def byteSwreset (cat : Catalog) : Byte := cat.opSoftReset
/-- The byte of NOP (R124). -/
def byteNop (cat : Catalog) : Byte := cat.opNop
/-- The byte of RATIO r (R125). -/
def byteRatio (cat : Catalog) (r : Nat) : Byte := fieldCommand cat.baseRatio 0x07 r
/-- The byte of EV c (R126). -/
def byteEv (cat : Catalog) (c : Nat) : Byte := fieldCommand cat.baseEv 0x1F c
/-- The byte of PAGE p (R127). -/
def bytePage (cat : Catalog) (p : Nat) : Byte := fieldCommand cat.basePage 0x0F p
/-- The byte of COLMSB c: bits 6 to 4 of the column (R128). -/
def byteColmsb (cat : Catalog) (c : Nat) : Byte := fieldCommand cat.baseColMsb 0x07 (columnHigh c)
/-- The byte of COLLSB c: bits 3 to 0 of the column (R129). -/
def byteCollsb (cat : Catalog) (c : Nat) : Byte := fieldCommand cat.baseColLsb 0x0F c
/-- The byte of STARTLINE l (R130). -/
def byteStartline (cat : Catalog) (l : Nat) : Byte := fieldCommand cat.baseStartline 0x3F l

/-- `ColumnPair(c)`: the MSB-nibble command first (R131). -/
def columnPair (cat : Catalog) (c : Nat) : List Byte := [byteColmsb cat c, byteCollsb cat c]

/-- The segment-direction byte: reversed iff rotation = 180 (R93, R186). -/
def byteSegment (cat : Catalog) (rotation : Nat) : Byte := if rotation = 180 then byteSegrev cat else byteSegnorm cat

/-- The common-direction byte: reversed iff rotation = 180 (R93, R186). -/
def byteCommon (cat : Catalog) (rotation : Nat) : Byte := if rotation = 180 then byteComrev cat else byteComnorm cat

/-- The video byte: inverse iff the flag is true (R93, R186). -/
def byteVideo (cat : Catalog) (inverse : Bool) : Byte := if inverse then byteVidinv cat else byteVidnorm cat

/-- The command byte of an encoder operation; the other operations have none. -/
def commandByte (cat : Catalog) : Instr → Option Byte
  | .dispon => some (byteDispon cat)
  | .dispoff => some (byteDispoff cat)
  | .vidnorm => some (byteVidnorm cat)
  | .vidinv => some (byteVidinv cat)
  | .allnorm => some (byteAllnorm cat)
  | .allon => some (byteAllon cat)
  | .segnorm => some (byteSegnorm cat)
  | .segrev => some (byteSegrev cat)
  | .comnorm => some (byteComnorm cat)
  | .comrev => some (byteComrev cat)
  | .pwron => some (bytePwron cat)
  | .pwroff => some (bytePwroff cat)
  | .swreset => some (byteSwreset cat)
  | .nop => some (byteNop cat)
  | .ratio r => some (byteRatio cat r)
  | .ev c => some (byteEv cat c)
  | .page p => some (bytePage cat p)
  | .colmsb c => some (byteColmsb cat c)
  | .collsb c => some (byteCollsb cat c)
  | .startline l => some (byteStartline cat l)
  | .beginWrite _ => none
  | .byte _ => none
  | .endWrite => none
  | .write _ _ => none
  | .sessionReset => none
  | .sessionInitialize _ _ _ _ => none
  | .setContrast _ => none
  | .setInversion _ => none
  | .setRotation _ => none
  | .sleep _ => none
  | .refresh _ => none

/-- An encoder operation returns its byte to the caller and does nothing else (R110). -/
def returnByte (b : Byte) (s : State) : Host.Outcome State Fault Refusal := .next (s.reply (.byte b))

/-- DISPON (R111). -/
def execDispon (s : State) : Host.Outcome State Fault Refusal := returnByte (byteDispon s.params.cat) s
/-- DISPOFF (R112). -/
def execDispoff (s : State) : Host.Outcome State Fault Refusal := returnByte (byteDispoff s.params.cat) s
/-- VIDNORM (R113). -/
def execVidnorm (s : State) : Host.Outcome State Fault Refusal := returnByte (byteVidnorm s.params.cat) s
/-- VIDINV (R114). -/
def execVidinv (s : State) : Host.Outcome State Fault Refusal := returnByte (byteVidinv s.params.cat) s
/-- ALLNORM (R115). -/
def execAllnorm (s : State) : Host.Outcome State Fault Refusal := returnByte (byteAllnorm s.params.cat) s
/-- ALLON (R116). -/
def execAllon (s : State) : Host.Outcome State Fault Refusal := returnByte (byteAllon s.params.cat) s
/-- SEGNORM (R117). -/
def execSegnorm (s : State) : Host.Outcome State Fault Refusal := returnByte (byteSegnorm s.params.cat) s
/-- SEGREV (R118). -/
def execSegrev (s : State) : Host.Outcome State Fault Refusal := returnByte (byteSegrev s.params.cat) s
/-- COMNORM (R119). -/
def execComnorm (s : State) : Host.Outcome State Fault Refusal := returnByte (byteComnorm s.params.cat) s
/-- COMREV (R120). -/
def execComrev (s : State) : Host.Outcome State Fault Refusal := returnByte (byteComrev s.params.cat) s
/-- PWRON (R121). -/
def execPwron (s : State) : Host.Outcome State Fault Refusal := returnByte (bytePwron s.params.cat) s
/-- PWROFF (R122). -/
def execPwroff (s : State) : Host.Outcome State Fault Refusal := returnByte (bytePwroff s.params.cat) s
/-- SWRESET (R123): only the byte is formed; the block is not reset (R241). -/
def execSwreset (s : State) : Host.Outcome State Fault Refusal := returnByte (byteSwreset s.params.cat) s
/-- NOP (R124). -/
def execNop (s : State) : Host.Outcome State Fault Refusal := returnByte (byteNop s.params.cat) s
/-- RATIO r (R125). -/
def execRatio (r : Nat) (s : State) : Host.Outcome State Fault Refusal := returnByte (byteRatio s.params.cat r) s
/-- EV c (R126). -/
def execEv (c : Nat) (s : State) : Host.Outcome State Fault Refusal := returnByte (byteEv s.params.cat c) s
/-- PAGE p (R127). -/
def execPage (p : Nat) (s : State) : Host.Outcome State Fault Refusal := returnByte (bytePage s.params.cat p) s
/-- COLMSB c (R128). -/
def execColmsb (c : Nat) (s : State) : Host.Outcome State Fault Refusal := returnByte (byteColmsb s.params.cat c) s
/-- COLLSB c (R129). -/
def execCollsb (c : Nat) (s : State) : Host.Outcome State Fault Refusal := returnByte (byteCollsb s.params.cat c) s
/-- STARTLINE l (R130). -/
def execStartline (l : Nat) (s : State) : Host.Outcome State Fault Refusal := returnByte (byteStartline s.params.cat l) s

end Sys2Proof.Machine
end

