-- ==== Sys2Proof/Machine/Framer.lean ====
section
/-! DEFINITION. The framer's port operations and the composite write (41_framer.md). -/

namespace Sys2Proof.Machine

/-- BEGIN dc (R156). -/
def execBegin (dc : Bool) (s : State) : Host.Outcome State Fault Refusal := (beginPort dc s).finish

/-- BYTE d (R157). -/
def execByte (d : Byte) (s : State) : Host.Outcome State Fault Refusal := (bytePort d s).finish

/-- END (R158). -/
def execEnd (s : State) : Host.Outcome State Fault Refusal := (endPort s).finish

/-- WRITE dc, p (R159). -/
def execWrite (dc : Bool) (p : List Byte) (s : State) : Host.Outcome State Fault Refusal := (logicalWrite dc p s).finish

end Sys2Proof.Machine
end

