-- ==== Sys2Proof/Machine/Sessions.lean ====
section
/-! DEFINITION. The host layer: the seven pseudo-operations of the Controller Session (42_session_sequences.md). -/

namespace Sys2Proof.Machine

/-- The logical writes of reset(): the software-reset command alone (R184). -/
def resetWrites (cat : Catalog) : List (Bool × List Byte) := [(false, [byteSwreset cat])]

/-- The nine commands of initialize, in order (R186, C2). -/
def initializeList (cat : Catalog) (rotation : Nat) (inverse : Bool) (contrast ratio : Nat) : List Byte :=
  [byteRatio cat ratio, byteEv cat contrast, byteAllnorm cat, bytePwron cat, byteSegment cat rotation,
   byteCommon cat rotation, byteVideo cat inverse, byteStartline cat 0, byteDispon cat]

/-- The logical writes of initialize: one command write (R186). -/
def initializeWrites (cat : Catalog) (rotation : Nat) (inverse : Bool) (contrast ratio : Nat) : List (Bool × List Byte) :=
  [(false, initializeList cat rotation inverse contrast ratio)]

/-- The logical writes of set_contrast (R188). -/
def contrastWrites (cat : Catalog) (level : Nat) : List (Bool × List Byte) := [(false, [byteEv cat level])]

/-- The logical writes of set_inversion (R189). -/
def inversionWrites (cat : Catalog) (flag : Bool) : List (Bool × List Byte) := [(false, [byteVideo cat flag])]

/-- The logical writes of set_rotation: the pair in one write, segment direction first (R190, D12). -/
def rotationWrites (cat : Catalog) (rotation : Nat) : List (Bool × List Byte) :=
  [(false, [byteSegment cat rotation, byteCommon cat rotation])]

/-- The logical writes of sleep (R192, R193, D13). -/
def sleepWrites (cat : Catalog) (enable : Bool) : List (Bool × List Byte) :=
  if enable then [(false, [byteDispoff cat, byteAllon cat])] else [(false, [byteAllnorm cat])]

/-- The logical writes of refresh: addressing commands, the framebuffer as data, display-on (R197, D11). -/
def refreshWrites (cat : Catalog) (framebuffer : List Byte) : List (Bool × List Byte) :=
  [(false, [byteStartline cat 0, bytePage cat 0] ++ columnPair cat 0),
   (true, framebufferPayload framebuffer),
   (false, [byteDispon cat])]

/-- reset() (R184): the pulse if there is a reset line, then the software reset; `CFG` is left alone (R36). -/
def execReset (s : State) : Host.Outcome State Fault Refusal :=
  (sessionOperation .opReset
    (fun t => logicalWrites (resetWrites s.params.cat) (pulseResetLine t))
    (fun t => { t with session := .reset }) s).finish

/-- initialize(rotation, inverse, contrast, ratio) (R186). -/
def execInitialize (rotation : Nat) (inverse : Bool) (contrast ratio : Nat) (s : State) : Host.Outcome State Fault Refusal :=
  (sessionOperation .opInitialize
    (fun t => logicalWrites (initializeWrites s.params.cat rotation inverse contrast ratio) { t with session := .initializing })
    (fun t => { t with session := .operating,
                       cfg := { rotation := rotationField rotation, inverse := inverse,
                                contrast := contrastField contrast, ratio := ratioField ratio } }) s).finish

/-- set_contrast(level) (R188). -/
def execSetContrast (level : Nat) (s : State) : Host.Outcome State Fault Refusal :=
  (sessionOperation .opSetContrast (logicalWrites (contrastWrites s.params.cat level))
    (fun t => { t with cfg := { t.cfg with contrast := contrastField level } }) s).finish

/-- set_inversion(flag) (R189). -/
def execSetInversion (flag : Bool) (s : State) : Host.Outcome State Fault Refusal :=
  (sessionOperation .opSetInversion (logicalWrites (inversionWrites s.params.cat flag))
    (fun t => { t with cfg := { t.cfg with inverse := flag } }) s).finish

/-- set_rotation(rotation) (R190). -/
def execSetRotation (rotation : Nat) (s : State) : Host.Outcome State Fault Refusal :=
  (sessionOperation .opSetRotation (logicalWrites (rotationWrites s.params.cat rotation))
    (fun t => { t with cfg := { t.cfg with rotation := rotationField rotation } }) s).finish

/-- sleep(enable) (R192, R193): `CFG` is untouched (R35). -/
def execSleep (enable : Bool) (s : State) : Host.Outcome State Fault Refusal :=
  (sessionOperation (.opSleep enable) (logicalWrites (sleepWrites s.params.cat enable))
    (fun t => { t with session := if enable then .sleeping else .operating }) s).finish

/-- refresh(framebuffer) (R197): no state of the host layer changes. -/
def execRefresh (framebuffer : List Byte) (s : State) : Host.Outcome State Fault Refusal :=
  (sessionOperation .opRefresh (logicalWrites (refreshWrites s.params.cat framebuffer)) (fun t => t) s).finish

end Sys2Proof.Machine
end

