-- ==== Sys2Proof/Machine/Dispatch.lean ====
section
/-! DEFINITION. The dispatcher: one arm per operation, each one call of its meaning. -/

namespace Sys2Proof.Machine

def exec (i : Instr) (s : State) : Host.Outcome State Fault Refusal :=
  match i with
  | .dispon => Sys2Proof.Machine.execDispon s
  | .dispoff => Sys2Proof.Machine.execDispoff s
  | .vidnorm => Sys2Proof.Machine.execVidnorm s
  | .vidinv => Sys2Proof.Machine.execVidinv s
  | .allnorm => Sys2Proof.Machine.execAllnorm s
  | .allon => Sys2Proof.Machine.execAllon s
  | .segnorm => Sys2Proof.Machine.execSegnorm s
  | .segrev => Sys2Proof.Machine.execSegrev s
  | .comnorm => Sys2Proof.Machine.execComnorm s
  | .comrev => Sys2Proof.Machine.execComrev s
  | .pwron => Sys2Proof.Machine.execPwron s
  | .pwroff => Sys2Proof.Machine.execPwroff s
  | .swreset => Sys2Proof.Machine.execSwreset s
  | .nop => Sys2Proof.Machine.execNop s
  | .ratio r => Sys2Proof.Machine.execRatio r s
  | .ev c => Sys2Proof.Machine.execEv c s
  | .page p => Sys2Proof.Machine.execPage p s
  | .colmsb c => Sys2Proof.Machine.execColmsb c s
  | .collsb c => Sys2Proof.Machine.execCollsb c s
  | .startline l => Sys2Proof.Machine.execStartline l s
  | .beginWrite dc => Sys2Proof.Machine.execBegin dc s
  | .byte d => Sys2Proof.Machine.execByte d s
  | .endWrite => Sys2Proof.Machine.execEnd s
  | .write dc p => Sys2Proof.Machine.execWrite dc p s
  | .sessionReset => Sys2Proof.Machine.execReset s
  | .sessionInitialize rotation inverse contrast ratio => Sys2Proof.Machine.execInitialize rotation inverse contrast ratio s
  | .setContrast level => Sys2Proof.Machine.execSetContrast level s
  | .setInversion flag => Sys2Proof.Machine.execSetInversion flag s
  | .setRotation rotation => Sys2Proof.Machine.execSetRotation rotation s
  | .sleep enable => Sys2Proof.Machine.execSleep enable s
  | .refresh framebuffer => Sys2Proof.Machine.execRefresh framebuffer s

end Sys2Proof.Machine
end

