-- ==== Sys2Proof/Machine/Fetch.lean ====
section
/-! DEFINITION. What the host presents next (R25, R88, R89): the block has no fetch and no program counter. -/

namespace Sys2Proof.Machine

/-- What a step has to do: run an operation, or nothing more than what has been done. -/
inductive Fetched where
  | run (i : Instr) (s : State)
  | ended (s : State)
  deriving DecidableEq, Repr

/-- Take the next thing the host presents. With nothing presented nothing happens (R217); a port word without
a strobe presents no operation (R89); an unassigned port word is refused with `E_PROTOCOL` (R96, R214). -/
def fetch (s : State) : Fetched :=
  match s.presented with
  | [] => .ended s
  | .blockReset :: rest => .ended (blockReset { s with presented := rest })
  | .constructSession :: rest => .ended (constructSession { s with presented := rest })
  | .port w :: rest =>
    match decode w with
    | .operation i => .run i { s with presented := rest }
    | .nothing => .ended { s with presented := rest }
    | .unassigned why => .ended (State.reply { s with presented := rest } (.fault (.eProtocol (.unassigned why))))

/-- Present a word of spec/opcode_table.json before everything else; a word that stands for no port word is
presented as the unassigned index `ESEL` 31 (log entry 12). -/
def presentTableWord (s : State) (nbits w : Nat) : State :=
  { s with presented := .port ((tablePortWord nbits w).getD (.encoder 31 0)) :: s.presented }

end Sys2Proof.Machine
end

