-- ==== Sys2Proof/Safety.lean ====
section
/-! DEFINITION. What claims call a good state and a good trace: the invariants of R27, the session between operations (R30), the discipline of chip-select (R67, R250), and what an observer reads off the trace (R226, R228). -/

namespace Sys2Proof.Machine

/-- R27 (c), which holds for `CNT = 0` too, as (b): above slot `CNT` the buffer is clear, the filled slots
carry the selector bit, and of `BUF[CNT]` only the top `CNT` bits are occupied. -/
def State.PartialGroup (s : State) : Prop :=
  (∀ k : Fin 9, s.cnt.val < k.val → s.buf[k] = 0) ∧
  (∀ k : Fin 8, k.val < s.cnt.val → s.buf[k.castSucc].getLsbD (7 - k.val) = s.dc) ∧
  (∀ j : Fin 8, j.val ≤ 7 - s.cnt.val → s.buf[s.cnt.castSucc].getLsbD j.val = false)

/-- The invariants of R27 between operations: (a), (b), (c), (d) as far as the state shows it, and (e). -/
structure State.BlockInv (s : State) : Prop where
  idle_clear      : s.phase = .idle → s.cnt = 0 ∧ s.buf = Octets.zero
  group_start     : s.cnt = 0 → s.buf = Octets.zero
  partial_group   : s.PartialGroup
  open_selected   : s.cnt ≠ 0 → s.sel = true
  idle_unselected : s.phase = .idle → s.sel = false

/-- No operation starts or ends in `Initializing` (R30). -/
def State.SessionSettled (s : State) : Prop := s.session ≠ .initializing

/-- The level to which the events of a trace last drove chip-select: low when asserted (R226), none before any
event drives it. A block reset leaves no event (R240), so after one inside an open write this stays low, where the
spec leaves the line at whatever the platform's reset gives it (U13): DESIGN CHOICE, log entries 15 and 28. -/
def chipSelectLevel (trace : List Event) : Option Level :=
  trace.foldl (fun level e => match e with
    | .select => some .low
    | .deselect => some .high
    | .tx _ => level
    | .resetLine _ => level
    | .wait _ => level) none

/-- The level to which the events of a trace last drove the reset line (R228), none before any event drives it.
A block reset leaves no event and so no change here, where the spec leaves the line open (U12): DESIGN CHOICE,
log entries 15 and 28. -/
def resetLineLevel (trace : List Event) : Option Level :=
  trace.foldl (fun level e => match e with
    | .select => level
    | .deselect => level
    | .tx _ => level
    | .resetLine l => some l
    | .wait _ => level) none

/-- Every group of the trace was transmitted with chip-select asserted (R250): `selected` says whether it is
asserted before the trace. -/
def txWhileSelected : Bool → List Event → Bool
  | _, [] => true
  | _, .select :: rest => txWhileSelected true rest
  | _, .deselect :: rest => txWhileSelected false rest
  | selected, .tx _ :: rest => selected && txWhileSelected selected rest
  | selected, .resetLine _ :: rest => txWhileSelected selected rest
  | selected, .wait _ :: rest => txWhileSelected selected rest

/-- The discipline of chip-select: no group leaves with the line released, and `SEL = 1` means that the line
is asserted (R24, R250). -/
structure State.SelectInv (s : State) : Prop where
  tx_selected  : txWhileSelected false s.trace = true
  sel_asserted : s.sel = true → chipSelectLevel s.trace = some .low

/-- The events of one complete logical write (R159): the groups between Select and Deselect; an empty write
leaves `Select, Deselect` or nothing, as the instance is built (R154). -/
def writeTrace (emptyWriteSelects : Bool) (groups : List Octets) : List Event :=
  if groups.isEmpty && !emptyWriteSelects then []
  else [.select] ++ groups.map .tx ++ [.deselect]

/-- The events of logical writes of the given groups, up to the `Tx` of group `n` counted through all of them:
the complete writes before it, then its own write from Select to that `Tx` (R67 (c), R219). -/
def eventsUpTo (emptyWriteSelects : Bool) : List (List Octets) → Nat → List Event
  | [], _ => []
  | groups :: rest, n =>
    if n < groups.length then [.select] ++ (groups.take (n + 1)).map .tx
    else writeTrace emptyWriteSelects groups ++ eventsUpTo emptyWriteSelects rest (n - groups.length)

/-- The transport after it has answered ok to the next `n` `Tx` events; none if it does not. -/
def Transport.afterOks : Nat → Transport → Option Transport
  | 0, t => some t
  | n + 1, t =>
    match t.next with
    | some (.ok, u) => Transport.afterOks n u
    | some (.fail _, _) => none
    | none => none

/-- The group that END hands over: the filler in every slot from `cnt` on (R158). -/
def paddedGroup (filler : Byte) (dc : Bool) (cnt : Fin 8) (buf : Octets) : Octets :=
  (List.finRange 8).foldl (fun out i => if cnt ≤ i then packSlot dc i filler out else out) buf

/-- The operations of group E (R94). -/
def isEncoderOp (i : Instr) : Bool := (commandByte defaultCatalog i).isSome

/-- The seven operations of the Controller Session (R191). -/
def isSessionOp : Instr → Bool
  | .sessionReset => true
  | .sessionInitialize _ _ _ _ => true
  | .setContrast _ => true
  | .setInversion _ => true
  | .setRotation _ => true
  | .sleep _ => true
  | .refresh _ => true
  | .dispon | .dispoff | .vidnorm | .vidinv | .allnorm | .allon | .segnorm | .segrev | .comnorm | .comrev
  | .pwron | .pwroff | .swreset | .nop | .ratio _ | .ev _ | .page _ | .colmsb _ | .collsb _ | .startline _
  | .beginWrite _ | .byte _ | .endWrite | .write _ _ => false

/-- A run may end here: no write is left open (D30). -/
def State.Quiescent (s : State) : Prop := s.phase = .idle

end Sys2Proof.Machine
end

