-- ==== Sys2Proof/WellFormed.lean ====
section
/-! DEFINITION. Well-formed parameter instances (R7) and operations that keep the caller's contract (R252, R257, R258). No meaning reads these checks: an operation outside its contract still runs (R95, R211). -/

namespace Sys2Proof

/-- The six base opcodes, each with its field mask (the table of R5). -/
def Catalog.bases (c : Catalog) : List (Byte × Byte) :=
  [(c.baseRatio, 0x07), (c.baseEv, 0x1F), (c.baseStartline, 0x3F), (c.basePage, 0x0F),
   (c.baseColMsb, 0x07), (c.baseColLsb, 0x0F)]

/-- R7 (a): each base opcode leaves its field clear. -/
def Catalog.wf (c : Catalog) : Bool := c.bases.all fun (base, mask) => base &&& mask == 0

/-- R7: (a) the catalog; (b) `FB_SIZE` is an integer and a multiple of 8; (c) `WIDTH ≥ 1`, `HEIGHT ≥ 1`. -/
def Params.wf (p : Params) : Bool :=
  p.cat.wf && p.width * p.height % 8 == 0 && p.fbSize % 8 == 0 && decide (1 ≤ p.width) && decide (1 ≤ p.height)

/-- The rotations a caller may ask for (R257). -/
def rotationInRange (rotation : Nat) : Bool := rotation == 0 || rotation == 180

/-- The caller's contract for one operation: parameter ranges (R257), data writes of a multiple of
8 bytes (R252), a framebuffer of `FB_SIZE` bytes (R258). -/
def Instr.wf (p : Params) : Instr → Bool
  | .dispon => true
  | .dispoff => true
  | .vidnorm => true
  | .vidinv => true
  | .allnorm => true
  | .allon => true
  | .segnorm => true
  | .segrev => true
  | .comnorm => true
  | .comrev => true
  | .pwron => true
  | .pwroff => true
  | .swreset => true
  | .nop => true
  | .ratio r => decide (r ≤ 7)
  | .ev c => decide (c ≤ 31)
  | .page n => decide (n ≤ 15)
  | .colmsb c => decide (c ≤ 127)
  | .collsb c => decide (c ≤ 127)
  | .startline l => decide (l ≤ 63)
  | .beginWrite _ => true
  | .byte _ => true
  | .endWrite => true
  | .write dc bytes => !dc || bytes.length % 8 == 0
  | .sessionReset => true
  | .sessionInitialize rotation _ contrast bias =>
      rotationInRange rotation && decide (contrast ≤ 31) && decide (bias ≤ 7)
  | .setContrast level => decide (level ≤ 31)
  | .setInversion _ => true
  | .setRotation rotation => rotationInRange rotation
  | .sleep _ => true
  | .refresh framebuffer => framebuffer.length == p.fbSize && framebuffer.length % 8 == 0

end Sys2Proof
end

