-- ==== Sys2Proof/Certificates/Slice0/Obligations.lean ====
section
/-! DEFINITION. The statements for the provers. Each is made over every parameter instance, since State carries it (log entry 1). -/

open Sys2Proof Sys2Proof.Machine

namespace Sys2Proof.Claims

/-- `s` after an operation that did nothing but return `r`. -/
def returned (s : State) (r : Reply) : State := { s with replies := s.replies ++ [r] }

/-- The low `w` bits of `b` are those of `p`, the others those of `base` (R82). -/
def FieldInserted (base b : Byte) (w p : Nat) : Prop :=
  b.extractLsb' 0 w = BitVec.ofNat w p ∧ b.extractLsb' w (8 - w) = base.extractLsb' w (8 - w)

/-- `s` on an instance that differs in EMPTY_WRITE_SELECTS. -/
def withEmptyWriteSelects (s : State) (b : Bool) : State :=
  { s with params := { s.params with emptyWriteSelects := b } }

/-- What may follow a failed `Tx` in the trace (R220). -/
def FailTail (tail : List Event) : Prop := tail = [] ∨ tail = [.deselect]

/-- `s` after a logical write with selector `dc` that added `events` and was answered ok throughout (R159). -/
def completed (s : State) (dc : Bool) (events : List Event) (t : Transport) : State :=
  { s with
    dc := dc, buf := Octets.zero, cnt := 0, phase := .idle, sel := false
    trace := s.trace ++ events, transport := t, replies := s.replies ++ [.done] }

/-- `s` after an operation that added `events`, the last `Tx` of which failed (R219). `freeCount` is the
model's own counter (log entry 24). -/
def abandoned (s : State) (events : List Event) (t : Transport) (err : TransportError) : State :=
  { s with
    buf := Octets.zero, cnt := 0, phase := .idle, sel := false
    trace := s.trace ++ events, transport := t, freeCount := s.freeCount + 1
    replies := s.replies ++ [.fault (.eTransport err)] }

/-- The last operation returned a fault. -/
def endsInFault (s : State) : Bool :=
  match s.replies.getLast? with
  | some (.fault _) => true
  | some .done => false
  | some (.byte _) => false
  | none => false

/-- Operations presented one after the other, cut short at the first that raises a fault (R159). -/
def runUntilFault : List Instr → State → Host.Outcome State Fault Refusal
  | [], s => .next s
  | i :: rest, s =>
    match exec i s with
    | .next t => if endsInFault t then .next t else runUntilFault rest t
    | .fault f => .fault f
    | .refused r => .refused r

/-- `BEGIN dc; BYTE p[0]; ...; BYTE p[L-1]; END` (R159). -/
def portSequence (dc : Bool) (p : List Byte) : List Instr := .beginWrite dc :: p.map .byte ++ [.endWrite]

/-- The whole behaviour, between operations, of a pseudo-operation `i` that performs one logical command write
of at most eight bytes: refused outside the states `valid` (R182, R213); refused by the framer inside an open
write (R218); otherwise the events `before`, then the one group between Select and Deselect, then `update`
(R183); a failed transmit unconfigures the session (R221); a `Tx` never answered blocks (R68). The refusals, the
unconfigured session and the open `Deselect` are the spec's decisions D14, D25, D24 and D6 (log entries 5, 13). -/
def SingleGroupOperation (i : Instr) (op : SessionOp) (valid : List Session) (before : State → List Event)
    (payload : Catalog → List Byte) (update : State → State) : Prop :=
  ∀ s : State, s.SessionSettled →
    (s.session ∉ valid → exec i s = .next (returned s (.fault (.eInvalidState op s.session)))) ∧
    (s.session ∈ valid → s.phase = .active →
      exec i s = .next (returned { s with trace := s.trace ++ before s } (.fault (.eProtocol .beginWhileActive)))) ∧
    (s.session ∈ valid → s.phase = .idle →
      ∀ g, g = packGroup false (chunkOf s.params.filler (payload s.params.cat) 0) →
        (∀ t, s.transport.next = some (.ok, t) →
          exec i s = .next (update (completed s false (before s ++ [.select, .tx g, .deselect]) t))) ∧
        (∀ err t, s.transport.next = some (.fail err, t) → ∃ tail, FailTail tail ∧
          exec i s = .next (abandoned { s with dc := false, session := .unconfigured }
            (before s ++ [.select, .tx g] ++ tail) t err)) ∧
        (s.transport.next = none → exec i s = .fault .transportUnanswered))

end Sys2Proof.Claims

open Sys2Proof.Claims

/-! ### The command encoder -/

/-- R81: each of the fourteen fixed opcodes returns its catalog constant, in every state, and changes nothing else. -/
def Obligations.FixedOpcodesReturnCatalogConstants : Prop :=
  ∀ s : State,
    exec .dispon s = .next (returned s (.byte s.params.cat.opDisplayOn)) ∧
    exec .dispoff s = .next (returned s (.byte s.params.cat.opDisplayOff)) ∧
    exec .vidnorm s = .next (returned s (.byte s.params.cat.opVideoNormal)) ∧
    exec .vidinv s = .next (returned s (.byte s.params.cat.opVideoInverse)) ∧
    exec .allnorm s = .next (returned s (.byte s.params.cat.opAllpixNormal)) ∧
    exec .allon s = .next (returned s (.byte s.params.cat.opAllpixOn)) ∧
    exec .segnorm s = .next (returned s (.byte s.params.cat.opSegNormal)) ∧
    exec .segrev s = .next (returned s (.byte s.params.cat.opSegReverse)) ∧
    exec .comnorm s = .next (returned s (.byte s.params.cat.opComNormal)) ∧
    exec .comrev s = .next (returned s (.byte s.params.cat.opComReverse)) ∧
    exec .pwron s = .next (returned s (.byte s.params.cat.opPowerOn)) ∧
    exec .pwroff s = .next (returned s (.byte s.params.cat.opPowerOff)) ∧
    exec .swreset s = .next (returned s (.byte s.params.cat.opSoftReset)) ∧
    exec .nop s = .next (returned s (.byte s.params.cat.opNop))

/-- R82, R92 (D10): each field command returns base OR (parameter AND mask), in every state, and changes nothing
else; over a well-formed catalog (R7 (a)) that is the parameter's low bits inserted into the base, the reading
R82 itself derives. COLMSB inserts bits 6 to 4 of the column, COLLSB bits 3 to 0, by R92. -/
def Obligations.FieldCommandsInsertTheMaskedParameter : Prop :=
  ∀ (s : State) (p : Nat), ∃ b1 b2 b3 b4 b5 b6 : Byte,
    exec (.ratio p) s = .next (returned s (.byte b1)) ∧ b1 = s.params.cat.baseRatio ||| BitVec.ofNat 8 (p &&& 0x07) ∧
    exec (.ev p) s = .next (returned s (.byte b2)) ∧ b2 = s.params.cat.baseEv ||| BitVec.ofNat 8 (p &&& 0x1F) ∧
    exec (.page p) s = .next (returned s (.byte b3)) ∧ b3 = s.params.cat.basePage ||| BitVec.ofNat 8 (p &&& 0x0F) ∧
    exec (.colmsb p) s = .next (returned s (.byte b4)) ∧
      b4 = s.params.cat.baseColMsb ||| BitVec.ofNat 8 ((p >>> 4) &&& 0x07) ∧
    exec (.collsb p) s = .next (returned s (.byte b5)) ∧ b5 = s.params.cat.baseColLsb ||| BitVec.ofNat 8 (p &&& 0x0F) ∧
    exec (.startline p) s = .next (returned s (.byte b6)) ∧
      b6 = s.params.cat.baseStartline ||| BitVec.ofNat 8 (p &&& 0x3F) ∧
    (s.params.cat.wf = true →
      FieldInserted s.params.cat.baseRatio b1 3 p ∧ FieldInserted s.params.cat.baseEv b2 5 p ∧
      FieldInserted s.params.cat.basePage b3 4 p ∧ FieldInserted s.params.cat.baseColMsb b4 3 (p / 16) ∧
      FieldInserted s.params.cat.baseColLsb b5 4 p ∧ FieldInserted s.params.cat.baseStartline b6 6 p)

/-- R132: over a well-formed catalog the masked parameter and the base are read back from the command byte;
two parameters with the same field give the same byte, so the parameter itself is not. -/
def Obligations.FieldIsRecoveredFromCommandByte : Prop :=
  ∀ (cat : Catalog) (p : Nat), cat.wf = true →
    (∀ b, commandByte cat (.ratio p) = some b → b &&& 0x07 = BitVec.ofNat 8 (p &&& 0x07) ∧ b &&& ~~~0x07 = cat.baseRatio) ∧
    (∀ b, commandByte cat (.ev p) = some b → b &&& 0x1F = BitVec.ofNat 8 (p &&& 0x1F) ∧ b &&& ~~~0x1F = cat.baseEv) ∧
    (∀ b, commandByte cat (.page p) = some b → b &&& 0x0F = BitVec.ofNat 8 (p &&& 0x0F) ∧ b &&& ~~~0x0F = cat.basePage) ∧
    (∀ b, commandByte cat (.colmsb p) = some b →
      b &&& 0x07 = BitVec.ofNat 8 ((p >>> 4) &&& 0x07) ∧ b &&& ~~~0x07 = cat.baseColMsb) ∧
    (∀ b, commandByte cat (.collsb p) = some b → b &&& 0x0F = BitVec.ofNat 8 (p &&& 0x0F) ∧ b &&& ~~~0x0F = cat.baseColLsb) ∧
    (∀ b, commandByte cat (.startline p) = some b →
      b &&& 0x3F = BitVec.ofNat 8 (p &&& 0x3F) ∧ b &&& ~~~0x3F = cat.baseStartline) ∧
    (∀ q, commandByte cat (.ratio p) = commandByte cat (.ratio (p + 8 * q)) ∧
      commandByte cat (.ev p) = commandByte cat (.ev (p + 32 * q)) ∧
      commandByte cat (.page p) = commandByte cat (.page (p + 16 * q)) ∧
      commandByte cat (.colmsb p) = commandByte cat (.colmsb (p + 128 * q)) ∧
      commandByte cat (.collsb p) = commandByte cat (.collsb (p + 16 * q)) ∧
      commandByte cat (.startline p) = commandByte cat (.startline (p + 64 * q)))

/-- R110: the byte of an encoder operation is one function of the catalog, the operation and its parameter;
nothing of the state but the catalog is read and nothing is written. -/
def Obligations.EncoderOperationsArePure : Prop :=
  ∃ f : Catalog → Instr → Byte, ∀ (i : Instr) (s : State), isEncoderOp i = true →
    exec i s = .next (returned s (.byte (f s.params.cat i)))

/-- R88: a bit-level encoder port that carries the low 8 bits of EPARAM is enough. -/
def Obligations.EncoderPortNeedsOnlyEightParameterBits : Prop :=
  ∀ (esel : BitVec 5) (eparam : Nat) (s : State) (i j : Instr),
    decode (.encoder esel eparam) = .operation i → decode (.encoder esel (eparam % 256)) = .operation j →
      exec i s = exec j s

/-- R95, R211: a parameter outside its range is no fault; the operation acts as with the truncated parameter,
and a rotation other than 180 acts as 0 (R93). -/
def Obligations.OutOfRangeParametersActAsTruncated : Prop :=
  ∀ (s : State) (a b c : Nat) (flag : Bool),
    exec (.ratio a) s = exec (.ratio (a % 8)) s ∧
    exec (.ev a) s = exec (.ev (a % 32)) s ∧
    exec (.page a) s = exec (.page (a % 16)) s ∧
    exec (.colmsb a) s = exec (.colmsb (a % 128)) s ∧
    exec (.collsb a) s = exec (.collsb (a % 128)) s ∧
    exec (.startline a) s = exec (.startline (a % 64)) s ∧
    exec (.setContrast a) s = exec (.setContrast (a % 32)) s ∧
    exec (.setRotation a) s = exec (.setRotation (if a = 180 then 180 else 0)) s ∧
    exec (.sessionInitialize a flag b c) s =
      exec (.sessionInitialize (if a = 180 then 180 else 0) flag (b % 32) (c % 8)) s

/-! ### The pure functions of the framer -/

/-- R87: PackGroup octet by octet; the three terms of a middle octet share no bit; the selector stands at bit
7-i of octet i. -/
def Obligations.PackGroupMatchesClosedFormulas : Prop :=
  ∀ (dc : Bool) (chunk : Chunk) (out : Octets), out = packGroup dc chunk →
    out[0] = selectorByte dc <<< 7 ||| chunk[0] >>> 1 ∧
    (∀ k : Fin 7,
      out[k.val + 1] = BitVec.ofNat 8 ((chunk[k.val].toNat <<< (7 - k.val)) &&& 0xFF) |||
        selectorByte dc <<< (6 - k.val) ||| chunk[k.val + 1] >>> (k.val + 2) ∧
      (chunk[k.val] <<< (7 - k.val)) &&& (selectorByte dc <<< (6 - k.val)) = 0 ∧
      (chunk[k.val] <<< (7 - k.val)) &&& (chunk[k.val + 1] >>> (k.val + 2)) = 0 ∧
      (selectorByte dc <<< (6 - k.val)) &&& (chunk[k.val + 1] >>> (k.val + 2)) = 0) ∧
    out[8] = chunk[7] ∧
    (∀ i : Fin 8, out[i.val].getLsbD (7 - i.val) = dc)

/-- R57: the 72 bits of a wire group are the eight tagged bytes end to end, most significant bits first. -/
def Obligations.WireGroupIsTaggedBytesConcatenated : Prop :=
  ∀ (dc : Bool) (chunk : Chunk),
    wireBits (packGroup dc chunk) = taggedBits dc chunk ∧ (wireBits (packGroup dc chunk)).length = 72

/-- R86: where each bit of a payload byte and each selector bit lands. -/
def Obligations.WireGroupBitMap : Prop :=
  ∀ (dc : Bool) (chunk : Chunk) (k j : Fin 8),
    ((packGroup dc chunk).toList.getD ((9 * k.val + 8 - j.val) / 8) 0).getLsbD (7 - (9 * k.val + 8 - j.val) % 8)
      = chunk[k].getLsbD j.val ∧
    ((packGroup dc chunk).toList.getD (9 * k.val / 8) 0).getLsbD (7 - 9 * k.val % 8) = dc

/-- R161: unpacking a packed group gives the selector eight times and the eight bytes; nine octets whose
selector positions disagree are no packed group. -/
def Obligations.UnpackInvertsPack : Prop :=
  (∀ (dc : Bool) (chunk : Chunk), unpackGroup (packGroup dc chunk) = (Vector.replicate 8 dc, chunk)) ∧
  (∀ (out : Octets) (i j : Fin 8), unpackSelector out i ≠ unpackSelector out j →
    ∀ (dc : Bool) (chunk : Chunk), packGroup dc chunk ≠ out)

/-- R155, R154: Frame gives 9 × ceil(L / 8) octets, none for an empty payload. -/
def Obligations.FrameLengthLaw : Prop :=
  ∀ (filler : Byte) (dc : Bool) (p : List Byte),
    ((frame filler dc p).flatMap fun g => g.toList).length = 9 * groupCount p.length ∧
    p.length ≤ 8 * groupCount p.length ∧ 8 * groupCount p.length < p.length + 8 ∧
    (p = [] → frame filler dc p = [])

/-- R162, R58: group g of a frame unpacks to the selector in every slot, the payload bytes 8g to 8g+7 in
order, and the filler in every slot the payload does not reach. -/
def Obligations.FrameUnpacksToPaddedPayload : Prop :=
  ∀ (filler : Byte) (dc : Bool) (p : List Byte) (g : Nat), g < groupCount p.length →
    ∃ out, (frame filler dc p)[g]? = some out ∧ ∀ j : Fin 8,
      unpackSelector out j = dc ∧
      (∀ d, p[8 * g + j.val]? = some d → unpackByte out j = d) ∧
      (p.length ≤ 8 * g + j.val → unpackByte out j = filler)

/-- R163: a group depends on its own eight payload positions only, and payload byte k of a group only on
octets k and k+1 of it (octet 8 alone for the last). -/
def Obligations.GroupsAreIndependent : Prop :=
  (∀ (filler : Byte) (dc : Bool) (p q : List Byte) (g : Nat), g < groupCount p.length → g < groupCount q.length →
    (∀ j, j < 8 → p[8 * g + j]? = q[8 * g + j]?) → (frame filler dc p)[g]? = (frame filler dc q)[g]?) ∧
  (∀ (dc : Bool) (c : Chunk) (k : Fin 8) (d : Byte) (n : Fin 9),
    (n ≠ k.succ ∧ (n ≠ k.castSucc ∨ k = 7)) → (packGroup dc (c.set k d))[n] = (packGroup dc c)[n])

/-! ### The framer's port operations -/

/-- R156: BEGIN's port words, its effect while IDLE for both settings of the empty write, its refusal while ACTIVE. -/
def Obligations.BeginOpensLogicalWrite : Prop :=
  (∀ fp : BitVec 12, fp.extractLsb' 9 3 = 0b100 → decode (.framer fp) = .operation (.beginWrite (fp.getLsbD 8))) ∧
  ∀ (s : State) (dc : Bool),
    (s.phase = .idle → s.params.emptyWriteSelects = false →
      exec (.beginWrite dc) s = .next { s with
        phase := .active, dc := dc, cnt := 0, buf := Octets.zero, sel := false, replies := s.replies ++ [.done] }) ∧
    (s.phase = .idle → s.params.emptyWriteSelects = true →
      exec (.beginWrite dc) s = .next { s with
        phase := .active, dc := dc, cnt := 0, buf := Octets.zero, sel := true
        trace := s.trace ++ [.select], replies := s.replies ++ [.done] }) ∧
    (s.phase = .active → exec (.beginWrite dc) s = .next (returned s (.fault (.eProtocol .beginWhileActive))))

/-- R157: BYTE's port words; its two octets for slots 0 to 6, with the lossless left shift cut to 8 bits; the
completed group, handed over and answered ok, failed (R219), or never (R68); its refusal while IDLE. -/
def Obligations.BytePacksOneSlot : Prop :=
  (∀ fp : BitVec 12, fp.extractLsb' 9 3 = 0b010 → decode (.framer fp) = .operation (.byte (fp.extractLsb' 0 8))) ∧
  ∀ (s : State) (d : Byte) (select : List Event), select = (if s.sel then [] else [.select]) →
    (s.phase = .idle → exec (.byte d) s = .next (returned s (.fault (.eProtocol .byteWhileIdle)))) ∧
    (s.phase = .active → s.cnt.val ≤ 6 →
      exec (.byte d) s = .next { s with
        sel := true, trace := s.trace ++ select
        buf := (s.buf.set s.cnt.castSucc
            (s.buf[s.cnt.castSucc] ||| selectorByte s.dc <<< (7 - s.cnt.val) ||| d >>> (s.cnt.val + 1))).set s.cnt.succ
            (s.buf[s.cnt.succ] ||| BitVec.ofNat 8 ((d.toNat <<< (7 - s.cnt.val)) &&& 0xFF))
        cnt := s.cnt + 1, replies := s.replies ++ [.done] }) ∧
    (s.phase = .active → s.cnt = 7 →
      ∀ g, g = (s.buf.set 7 (s.buf[7] ||| selectorByte s.dc)).set 8 d →
        (∀ t, s.transport.next = some (.ok, t) →
          exec (.byte d) s = .next { s with
            sel := true, trace := s.trace ++ (select ++ [.tx g]), buf := Octets.zero, cnt := 0, transport := t
            replies := s.replies ++ [.done] }) ∧
        (∀ err t, s.transport.next = some (.fail err, t) → ∃ tail, FailTail tail ∧
          exec (.byte d) s = .next (abandoned s (select ++ [.tx g] ++ tail) t err)) ∧
        (s.transport.next = none → exec (.byte d) s = .fault .transportUnanswered))

/-- R158: END's port words; with no partial group it only releases chip-select; otherwise it fills the group
with the filler under the latched selector, hands it over, and releases chip-select; its refusal while IDLE. -/
def Obligations.EndFlushesAndReleases : Prop :=
  (∀ fp : BitVec 12, fp.extractLsb' 9 3 = 0b001 → decode (.framer fp) = .operation .endWrite) ∧
  ∀ (s : State) (release : List Event), release = (if s.sel then [.deselect] else []) →
    (s.phase = .idle → exec .endWrite s = .next (returned s (.fault (.eProtocol .endWhileIdle)))) ∧
    (s.phase = .active → s.cnt = 0 →
      exec .endWrite s = .next { s with
        phase := .idle, sel := false, trace := s.trace ++ release, replies := s.replies ++ [.done] }) ∧
    (s.phase = .active → s.cnt ≠ 0 →
      ∀ g, g = paddedGroup s.params.filler s.dc s.cnt s.buf →
        (∀ t, s.transport.next = some (.ok, t) →
          exec .endWrite s = .next (completed s s.dc ([.tx g] ++ release) t)) ∧
        (∀ err t, s.transport.next = some (.fail err, t) → ∃ tail, FailTail tail ∧
          exec .endWrite s = .next (abandoned s ([.tx g] ++ tail) t err)) ∧
        (s.transport.next = none → exec .endWrite s = .fault .transportUnanswered))

/-- R214: an operation in the wrong phase, an unassigned ESEL and a framer word with two strobes are refused
with E_PROTOCOL; nothing changes but that the host has presented it. A host that uses WRITE only, from IDLE,
never meets this fault. -/
def Obligations.ProtocolViolationsChangeNothing : Prop :=
  (∀ (s : State) (dc : Bool) (d : Byte),
    (s.phase = .active → exec (.beginWrite dc) s = .next (returned s (.fault (.eProtocol .beginWhileActive)))) ∧
    (s.phase = .idle → exec (.byte d) s = .next (returned s (.fault (.eProtocol .byteWhileIdle)))) ∧
    (s.phase = .idle → exec .endWrite s = .next (returned s (.fault (.eProtocol .endWhileIdle))))) ∧
  (∀ (s : State) (rest : List HostAction) (esel : BitVec 5) (eparam : Nat), 20 ≤ esel.toNat →
    s.presented = .port (.encoder esel eparam) :: rest →
    step s = .next (returned { s with presented := rest }
      (.fault (.eProtocol (.unassigned (.encoderIndex esel)))))) ∧
  (∀ (s : State) (rest : List HostAction) (fp : BitVec 12),
    (fp.getLsbD 11 && fp.getLsbD 10 || fp.getLsbD 11 && fp.getLsbD 9 || fp.getLsbD 10 && fp.getLsbD 9) = true →
    s.presented = .port (.framer fp) :: rest →
    step s = .next (returned { s with presented := rest }
      (.fault (.eProtocol (.unassigned (.framerStrobes fp)))))) ∧
  (∀ (s t : State) (dc : Bool) (p : List Byte), s.phase = .idle → exec (.write dc p) s = .next t →
    t.phase = .idle ∧ ∀ cause, t.replies ≠ s.replies ++ [.fault (.eProtocol cause)])

/-- R159: a WRITE presented while IDLE, every `Tx` answered ok, adds exactly Frame between Select and Deselect
(for an empty payload, both or neither) and leaves the block IDLE and clear. -/
def Obligations.WriteTransmitsFrame : Prop :=
  ∀ (s : State) (dc : Bool) (p : List Byte) (t : Transport), s.phase = .idle →
    s.transport.afterOks (groupCount p.length) = some t →
    exec (.write dc p) s =
      .next (completed s dc (writeTrace s.params.emptyWriteSelects (frame s.params.filler dc p)) t)

/-- R159: WRITE is the port operations BEGIN, BYTE..., END presented in turn and cut short at the first fault:
the same state and the same last outcome, or no step for both, in every state. Only the log of outcomes differs
(log entry 10): one of WRITE, one of each port operation. -/
def Obligations.WriteIsItsPortSequence : Prop :=
  ∀ (s : State) (dc : Bool) (p : List Byte),
    (∀ t, exec (.write dc p) s = .next t →
      ∃ u, runUntilFault (portSequence dc p) s = .next u ∧ { u with replies := t.replies } = t ∧
        u.replies.getLast? = t.replies.getLast?) ∧
    (∀ f, exec (.write dc p) s = .fault f → runUntilFault (portSequence dc p) s = .fault f)

/-- R219, R63: when the `Tx` of group n fails, groups 0 to n stand in the trace, group n is not sent again, no
later group is produced, and the block is IDLE and clear with `DC` kept. -/
def Obligations.WriteIsAbandonedAtTheFailedGroup : Prop :=
  ∀ (s : State) (dc : Bool) (p : List Byte) (n : Nat) (u t : Transport) (err : TransportError), s.phase = .idle →
    n < groupCount p.length → s.transport.afterOks n = some u → u.next = some (.fail err, t) →
    ∃ tail, FailTail tail ∧
      exec (.write dc p) s = .next (abandoned { s with dc := dc }
        ([.select] ++ ((frame s.params.filler dc p).take (n + 1)).map .tx ++ tail) t err)

/-- R68, U11 (stuck: log entry 4): an operation with several groups has no step when the `Tx` of any one of them is never answered. -/
def Obligations.UnansweredTransmitHasNoStep : Prop :=
  ∀ (s : State) (n : Nat) (u : Transport), s.phase = .idle → s.transport.afterOks n = some u → u.next = none →
    (∀ (dc : Bool) (p : List Byte), n < groupCount p.length → exec (.write dc p) s = .fault .transportUnanswered) ∧
    (∀ (rotation : Nat) (inverse : Bool) (contrast ratio : Nat), s.session = .reset ∨ s.session = .operating → n < 2 →
      exec (.sessionInitialize rotation inverse contrast ratio) s = .fault .transportUnanswered) ∧
    (∀ fb : List Byte, s.session = .operating → n < 1 + groupCount fb.length + 1 →
      exec (.refresh fb) s = .fault .transportUnanswered)

/-- R159, R214: a WRITE presented inside an open write is refused and changes nothing. -/
def Obligations.WriteInsideOpenWriteIsRefused : Prop :=
  ∀ (s : State) (dc : Bool) (p : List Byte), s.phase = .active →
    exec (.write dc p) s = .next (returned s (.fault (.eProtocol .beginWhileActive)))

/-- D4: for a payload that is not empty the setting EMPTY_WRITE_SELECTS makes no difference. -/
def Obligations.EmptyWriteSettingOnlyMattersForEmptyWrites : Prop :=
  ∀ (s t : State) (dc b : Bool) (p : List Byte), p ≠ [] → exec (.write dc p) s = .next t →
    exec (.write dc p) (withEmptyWriteSelects s b) = .next (withEmptyWriteSelects t b)

/-! ### The host layer -/

/-- R213, R182: a pseudo-operation in a state where the table says invalid returns E_INVALID_STATE, with its
name and the state, and changes nothing; `reset` and the block's own operations never return it. -/
def Obligations.InvalidSessionStateIsRefused : Prop :=
  (∀ s : State,
    (s.session = .unconfigured ∨ s.session = .sleeping → ∀ (rotation : Nat) (inverse : Bool) (contrast ratio : Nat),
      exec (.sessionInitialize rotation inverse contrast ratio) s =
        .next (returned s (.fault (.eInvalidState .opInitialize s.session)))) ∧
    (s.session = .unconfigured ∨ s.session = .reset ∨ s.session = .sleeping →
      (∀ level, exec (.setContrast level) s = .next (returned s (.fault (.eInvalidState .opSetContrast s.session)))) ∧
      (∀ flag, exec (.setInversion flag) s = .next (returned s (.fault (.eInvalidState .opSetInversion s.session)))) ∧
      (∀ rotation, exec (.setRotation rotation) s = .next (returned s (.fault (.eInvalidState .opSetRotation s.session)))) ∧
      (∀ fb, exec (.refresh fb) s = .next (returned s (.fault (.eInvalidState .opRefresh s.session))))) ∧
    (s.session = .unconfigured ∨ s.session = .reset → ∀ enable,
      exec (.sleep enable) s = .next (returned s (.fault (.eInvalidState (.opSleep enable) s.session))))) ∧
  (∀ (i : Instr) (s t : State) (op : SessionOp) (x : Session), i = .sessionReset ∨ isSessionOp i = false →
    exec i s = .next t → t.replies ≠ s.replies ++ [.fault (.eInvalidState op x)])

/-- R184: `reset`, in every session state: the pulse if there is a reset line, then SWRESET alone. It is
refused in no settled session, so the first clause is empty here. The pulse stands in the trace even when the write
is refused inside an open write (DEDUCED, log entry 25). The other clauses of SingleGroupOperation rest on the
decisions its docstring names. -/
def Obligations.ResetSendsSoftwareReset : Prop :=
  SingleGroupOperation .sessionReset .opReset [.unconfigured, .reset, .operating, .sleeping]
    (fun s => if s.params.hasResetLine then [.resetLine .low, .wait 5, .resetLine .high, .wait 5] else [])
    (fun cat => [cat.opSoftReset]) (fun t => { t with session := .reset })

/-- R188: `set_contrast`, in Operating only, sends EV level and stores the level cut to 5 bits. The other clauses
of SingleGroupOperation rest on the decisions its docstring names. -/
def Obligations.SetContrastSendsAndStoresLevel : Prop :=
  ∀ level, SingleGroupOperation (.setContrast level) .opSetContrast [.operating] (fun _ => [])
    (fun cat => [cat.baseEv ||| BitVec.ofNat 8 (level &&& 0x1F)])
    (fun t => { t with cfg := { t.cfg with contrast := BitVec.ofNat 5 level } })

/-- R189: `set_inversion`, in Operating only, sends VIDINV or VIDNORM and stores the flag. The other clauses
of SingleGroupOperation rest on the decisions its docstring names. -/
def Obligations.SetInversionSendsAndStoresFlag : Prop :=
  ∀ flag, SingleGroupOperation (.setInversion flag) .opSetInversion [.operating] (fun _ => [])
    (fun cat => [if flag then cat.opVideoInverse else cat.opVideoNormal])
    (fun t => { t with cfg := { t.cfg with inverse := flag } })

/-- R190: `set_rotation`, in Operating only: the segment and common pair in one write (D12). The other clauses
of SingleGroupOperation rest on the decisions its docstring names. -/
def Obligations.SetRotationSendsAndStoresRotation : Prop :=
  ∀ rotation, SingleGroupOperation (.setRotation rotation) .opSetRotation [.operating] (fun _ => [])
    (fun cat => if rotation = 180 then [cat.opSegReverse, cat.opComReverse] else [cat.opSegNormal, cat.opComNormal])
    (fun t => { t with cfg := { t.cfg with rotation := if rotation = 180 then .deg180 else .deg0 } })

/-- R192: `sleep(true)`, in Operating and (D15) Sleeping: display-off and all-pixels-on in one write (D13). The other clauses
of SingleGroupOperation rest on the decisions its docstring names. -/
def Obligations.SleepTrueSendsDisplayOffAllOn : Prop :=
  SingleGroupOperation (.sleep true) (.opSleep true) [.operating, .sleeping] (fun _ => [])
    (fun cat => [cat.opDisplayOff, cat.opAllpixOn]) (fun t => { t with session := .sleeping })

/-- R193: `sleep(false)`, in Sleeping and (D15) Operating: all-pixels-normal alone. The other clauses
of SingleGroupOperation rest on the decisions its docstring names. -/
def Obligations.SleepFalseSendsAllNormal : Prop :=
  SingleGroupOperation (.sleep false) (.opSleep false) [.operating, .sleeping] (fun _ => [])
    (fun cat => [cat.opAllpixNormal]) (fun t => { t with session := .operating })

/-- R186: `initialize`, in Reset and (D15) Operating: nine commands in the documented order in one logical write of
two groups; the four configuration fields; Operating. A failure of either group unconfigures the session and
leaves `CFG` (R221, D24); a refusal by the framer leaves the session as it was (DEDUCED, log entry 13). -/
def Obligations.InitializeSendsNineCommands : Prop :=
  ∀ (s : State) (rotation : Nat) (inverse : Bool) (contrast ratio : Nat) (list : List Byte) (groups : List Octets),
    s.SessionSettled →
    list = [s.params.cat.baseRatio ||| BitVec.ofNat 8 (ratio &&& 0x07),
            s.params.cat.baseEv ||| BitVec.ofNat 8 (contrast &&& 0x1F),
            s.params.cat.opAllpixNormal, s.params.cat.opPowerOn,
            if rotation = 180 then s.params.cat.opSegReverse else s.params.cat.opSegNormal,
            if rotation = 180 then s.params.cat.opComReverse else s.params.cat.opComNormal,
            if inverse then s.params.cat.opVideoInverse else s.params.cat.opVideoNormal,
            s.params.cat.baseStartline, s.params.cat.opDisplayOn] →
    groups = frame s.params.filler false list →
    (s.session = .unconfigured ∨ s.session = .sleeping →
      exec (.sessionInitialize rotation inverse contrast ratio) s =
        .next (returned s (.fault (.eInvalidState .opInitialize s.session)))) ∧
    (s.session = .reset ∨ s.session = .operating → s.phase = .active →
      exec (.sessionInitialize rotation inverse contrast ratio) s =
        .next (returned s (.fault (.eProtocol .beginWhileActive)))) ∧
    (s.session = .reset ∨ s.session = .operating → s.phase = .idle →
      (∀ t, s.transport.afterOks 2 = some t →
        groups.length = 2 ∧
        exec (.sessionInitialize rotation inverse contrast ratio) s =
          .next { completed s false ([.select] ++ groups.map .tx ++ [.deselect]) t with
            session := .operating
            cfg := { rotation := if rotation = 180 then .deg180 else .deg0, inverse := inverse,
                     contrast := BitVec.ofNat 5 contrast, ratio := BitVec.ofNat 3 ratio } }) ∧
      (∀ n u err t, n < 2 → s.transport.afterOks n = some u → u.next = some (.fail err, t) → ∃ tail, FailTail tail ∧
        exec (.sessionInitialize rotation inverse contrast ratio) s =
          .next (abandoned { s with dc := false, session := .unconfigured }
            ([.select] ++ (groups.take (n + 1)).map .tx ++ tail) t err)))

/-- R197 (D11): `refresh`, in Operating only: addressing commands, the framebuffer as one data write in ascending
order, display-on; neither `SESSION` nor `CFG` changes. Inside an open write the framer refuses it (R218). When the
`Tx` of any group fails, the trace ends with that `Tx` and the open `Deselect` (D6, log entry 5), no later group of any
of the three writes is sent, `DC` is the selector of the write that failed, and the session is unconfigured (R221). -/
def Obligations.RefreshSendsAddressDataDisplayOn : Prop :=
  ∀ (s : State) (fb addr : List Byte), s.session = .operating →
    addr = [s.params.cat.baseStartline, s.params.cat.basePage, s.params.cat.baseColMsb, s.params.cat.baseColLsb] →
    (s.phase = .active → exec (.refresh fb) s = .next (returned s (.fault (.eProtocol .beginWhileActive)))) ∧
    (s.phase = .idle → ∀ t, s.transport.afterOks (1 + groupCount fb.length + 1) = some t →
      exec (.refresh fb) s = .next (completed s false
        (writeTrace s.params.emptyWriteSelects (frame s.params.filler false addr) ++
         writeTrace s.params.emptyWriteSelects (frame s.params.filler true fb) ++
         writeTrace s.params.emptyWriteSelects (frame s.params.filler false [s.params.cat.opDisplayOn])) t)) ∧
    (s.phase = .idle → ∀ n u err t, n < 1 + groupCount fb.length + 1 →
      s.transport.afterOks n = some u → u.next = some (.fail err, t) →
      ∃ tail, FailTail tail ∧
        exec (.refresh fb) s = .next (abandoned
          { s with dc := decide (1 ≤ n ∧ n < 1 + groupCount fb.length), session := .unconfigured }
          (eventsUpTo s.params.emptyWriteSelects
            [frame s.params.filler false addr, frame s.params.filler true fb,
             frame s.params.filler false [s.params.cat.opDisplayOn]] n ++ tail) t err))

/-- R194: from Operating, `sleep(true)` then `sleep(false)`, answered ok: exactly two logical writes of one
group each, `CFG` unchanged, Operating again. The first write carries two commands, the second one, as this spec reads
the law (90_conflicts.md C3, D13). -/
def Obligations.SleepPairLeavesConfiguration : Prop :=
  ∀ (s : State) (t : Transport), s.session = .operating → s.phase = .idle → s.transport.afterOks 2 = some t →
    ∃ u v, exec (.sleep true) s = .next u ∧ exec (.sleep false) u = .next v ∧
      u.session = .sleeping ∧ v.session = .operating ∧ u.cfg = s.cfg ∧ v.cfg = s.cfg ∧ v.transport = t ∧
      v.replies = s.replies ++ [.done, .done] ∧
      v.trace = s.trace ++
        [.select, .tx (packGroup false (chunkOf s.params.filler [s.params.cat.opDisplayOff, s.params.cat.opAllpixOn] 0)), .deselect,
         .select, .tx (packGroup false (chunkOf s.params.filler [s.params.cat.opAllpixNormal] 0)), .deselect]

/-- R221, R219: whichever pseudo-operation ends with E_TRANSPORT, the session is Unconfigured, `CFG` is as
before, and the block is IDLE and clear. -/
def Obligations.TransportFailureUnconfiguresSession : Prop :=
  ∀ (i : Instr) (s t : State) (err : TransportError), isSessionOp i = true → exec i s = .next t →
    t.replies = s.replies ++ [.fault (.eTransport err)] →
    t.session = .unconfigured ∧ t.cfg = s.cfg ∧ t.phase = .idle ∧ t.cnt = 0 ∧ t.buf = Octets.zero ∧ t.sel = false

/-- R222, R248: after a pseudo-operation that ended with E_TRANSPORT every other one than `reset` is refused;
`reset` and then `initialize`, answered ok, bring the session to Operating with the configuration given. -/
def Obligations.RecoveryIsResetThenInitialize : Prop :=
  ∀ (i : Instr) (s f : State) (err : TransportError), isSessionOp i = true → exec i s = .next f →
    f.replies = s.replies ++ [.fault (.eTransport err)] →
    (∀ j, isSessionOp j = true → j ≠ .sessionReset →
      ∃ op, exec j f = .next (returned f (.fault (.eInvalidState op .unconfigured)))) ∧
    (∀ (t : Transport) (rotation : Nat) (inverse : Bool) (contrast ratio : Nat), f.transport.afterOks 3 = some t →
      ∃ u v, exec .sessionReset f = .next u ∧ u.session = .reset ∧
        exec (.sessionInitialize rotation inverse contrast ratio) u = .next v ∧ v.session = .operating ∧
        v.phase = .idle ∧ v.replies = f.replies ++ [.done, .done] ∧
        v.cfg = { rotation := if rotation = 180 then .deg180 else .deg0, inverse := inverse,
                  contrast := BitVec.ofNat 5 contrast, ratio := BitVec.ofNat 3 ratio })

/-- R187: what an operation adds to the trace, what it returns, and what it does to everything but `CFG` does
not depend on `CFG` nor on what was emitted or returned before. -/
def Obligations.OutputIgnoresConfigurationAndHistory : Prop :=
  ∀ (i : Instr) (s t : State) (c : SessionConfig) (events : List Event) (replies : List Reply), exec i s = .next t →
    ∃ c', exec i { s with cfg := c, trace := events ++ s.trace, replies := replies ++ s.replies } =
      .next { t with cfg := c', trace := events ++ t.trace, replies := replies ++ t.replies }

/-- R181: `SESSION` moves only as the document's arrows say, and to Unconfigured when a pseudo-operation ends
with E_TRANSPORT (R221). -/
def Obligations.SessionMovesOnlyByItsTransitions : Prop :=
  ∀ (i : Instr) (s t : State), s.SessionSettled → exec i s = .next t → t.session ≠ s.session →
    (i = .sessionReset ∧ t.session = .reset ∧ t.replies = s.replies ++ [.done]) ∨
    ((∃ rotation inverse contrast ratio, i = .sessionInitialize rotation inverse contrast ratio) ∧
      s.session = .reset ∧ t.session = .operating ∧ t.replies = s.replies ++ [.done]) ∨
    (i = .sleep true ∧ s.session = .operating ∧ t.session = .sleeping ∧ t.replies = s.replies ++ [.done]) ∨
    (i = .sleep false ∧ s.session = .sleeping ∧ t.session = .operating ∧ t.replies = s.replies ++ [.done]) ∨
    (isSessionOp i = true ∧ t.session = .unconfigured ∧ ∃ err, t.replies = s.replies ++ [.fault (.eTransport err)])

/-- R31 to R34: `CFG` changes only by a completed `initialize` or setter, and a setter changes its own field only. -/
def Obligations.ConfigurationChangesOnlyByItsSetters : Prop :=
  ∀ (i : Instr) (s t : State), exec i s = .next t → t.cfg ≠ s.cfg →
    t.replies = s.replies ++ [.done] ∧
    ((∃ rotation inverse contrast ratio, i = .sessionInitialize rotation inverse contrast ratio) ∨
     (∃ level, i = .setContrast level ∧ t.cfg = { s.cfg with contrast := BitVec.ofNat 5 level }) ∨
     (∃ flag, i = .setInversion flag ∧ t.cfg = { s.cfg with inverse := flag }) ∨
     (∃ rotation, i = .setRotation rotation ∧
       t.cfg = { s.cfg with rotation := if rotation = 180 then .deg180 else .deg0 }))

/-- R53, R59, R197: with a height that is a multiple of 8, pixel (x, y) of the framebuffer lies inside it and
travels in group k / 8 of the data write, at the wire position of bit y % 8 of its byte k. -/
def Obligations.PixelPositionOnTheWire : Prop :=
  ∀ (p : Params) (fb : List Byte) (x y k n : Nat), p.height % 8 = 0 → x < p.width → y < p.height → fb.length = p.fbSize →
    k = x + y / 8 * p.width → n = 9 * (k % 8) + 8 - y % 8 →
    k < p.fbSize ∧
    ∃ g, (frame p.filler true (framebufferPayload fb))[k / 8]? = some g ∧
      (g.toList.getD (n / 8) 0).getLsbD (7 - n % 8) = pixel p fb x y

/-! ### The machine -/

/-- R240, R242: the state after block reset and session construction, for every parameter instance. The
clauses on `DC` and `CFG` that the spec leaves open are not stated. Which parameters State.reset carries is the
model's choice (log entry 2). -/
def Obligations.ResetStateIsAsSpecified : Prop :=
  (∀ p : Params, (State.resetWith p).params = p ∧ (State.resetWith p).phase = .idle ∧ (State.resetWith p).cnt = 0 ∧
    (∀ k : Fin 9, (State.resetWith p).buf[k] = 0) ∧ (State.resetWith p).sel = false ∧
    (State.resetWith p).session = .unconfigured ∧ (State.resetWith p).trace = []) ∧
  State.reset = State.resetWith defaultParams

/-- R240: a block reset that strikes at any moment clears the framer, emits nothing and leaves the host layer
alone; `DC` is unspecified. -/
def Obligations.BlockResetClearsTheFramer : Prop :=
  ∀ (s : State) (rest : List HostAction), s.presented = .blockReset :: rest →
    ∃ dc, step s = .next { s with
      presented := rest, phase := .idle, cnt := 0, buf := Octets.zero, sel := false, dc := dc
      freeCount := s.freeCount + 1 }

/-- R242: session construction sets Unconfigured, leaves `CFG` unspecified, transmits nothing. -/
def Obligations.SessionConstructionUnconfigures : Prop :=
  ∀ (s : State) (rest : List HostAction), s.presented = .constructSession :: rest →
    ∃ c, step s = .next { s with
      presented := rest, session := .unconfigured, cfg := c, freeCount := s.freeCount + 1 }

/-- R27, R30, R250: the invariants hold at reset, for every parameter instance. -/
def Obligations.ResetMeetsTheInvariants : Prop :=
  ∀ p : Params, (State.resetWith p).BlockInv ∧ (State.resetWith p).SelectInv ∧ (State.resetWith p).SessionSettled

/-- R27: every step keeps the invariants of the block. -/
def Obligations.StepKeepsBlockInvariants : Prop :=
  ∀ s t : State, s.BlockInv → step s = .next t → t.BlockInv

/-- R250, R67 (c): every step keeps the discipline of chip-select: no group leaves with the line released.
The invariants of the block (kept by every step too) rule out a partial group without chip-select.
The level is the one the trace last drove, claimed only while `SEL` is 1 (log entries 15, 28). -/
def Obligations.StepKeepsSelectDiscipline : Prop :=
  ∀ s t : State, s.BlockInv → s.SelectInv → step s = .next t → t.SelectInv

/-- R30: no operation ends in Initializing. For a refusal by the framer this is the model's reading (DEDUCED, log entry 13). -/
def Obligations.StepKeepsSessionSettled : Prop :=
  ∀ s t : State, s.SessionSettled → step s = .next t → t.SessionSettled

/-- R27: no step changes the parameters of the instance. -/
def Obligations.StepKeepsParameters : Prop :=
  ∀ s t : State, step s = .next t → t.params = s.params

/-- R67 (b): a step only adds to the trace, and an operation returns exactly one outcome. -/
def Obligations.TraceGrowsInProgramOrder : Prop :=
  (∀ s t : State, step s = .next t → s.trace <+: t.trace ∧ s.replies <+: t.replies) ∧
  (∀ (i : Instr) (s t : State), exec i s = .next t → ∃ r, t.replies = s.replies ++ [r])

/-- R21 (D26), R253: while a write is open no operation changes its selector. -/
def Obligations.SelectorIsConstantInsideWrite : Prop :=
  ∀ (i : Instr) (s t : State), s.phase = .active → exec i s = .next t → t.dc = s.dc

/-- R27 (d), R24: chip-select, once asserted by a write, stays asserted while the write is open, and an accepted
BYTE that leaves the write open leaves it asserted. -/
def Obligations.SelectStaysAssertedInsideWrite : Prop :=
  ∀ (i : Instr) (s t : State), s.phase = .active → exec i s = .next t → t.phase = .active →
    (s.sel = true → t.sel = true) ∧ (∀ d, i = .byte d → t.sel = true)

/-- R228: no operation but `reset` on an instance with a reset line adds a reset-line event to the trace, and after
a `reset` the line is high, however the `reset` ended. That a `reset` refused inside an open write has pulsed the line
is the model's reading (DEDUCED, log entry 25); the level is the one the trace last drove (log entries 15, 28). -/
def Obligations.ResetLineMovesOnlyInReset : Prop :=
  ∀ (i : Instr) (s t : State), exec i s = .next t →
    (i = .sessionReset → s.params.hasResetLine = true → resetLineLevel t.trace = some .high) ∧
    (i ≠ .sessionReset ∨ s.params.hasResetLine = false →
      (∃ events, t.trace = s.trace ++ events ∧ ∀ level, Event.resetLine level ∉ events) ∧
        resetLineLevel t.trace = resetLineLevel s.trace)

/-- R68, R262: no operation is refused by the machine, and a step fails to end only when the transport never
answers (log entry 4). -/
def Obligations.StepEndsUnlessTransportNeverAnswers : Prop :=
  ∀ s : State, (∀ r, step s ≠ .refused r) ∧
    (∀ f, step s = .fault f → f = .transportUnanswered ∧ s.transport.afterwards = .never) ∧
    (s.transport.afterwards ≠ .never → ∃ t, step s = .next t)

/-- A step runs the operation the decoder reads from the port word presented; a word that presents no
operation and an empty list of presented operations do nothing (R25, R89, R217; the list is the model's form, log entry 11). -/
def Obligations.StepRunsThePresentedOperation : Prop :=
  ∀ s : State,
    (s.presented = [] → step s = .next s) ∧
    (∀ w rest, s.presented = .port w :: rest →
      (∀ i, decode w = .operation i → step s = exec i { s with presented := rest }) ∧
      (decode w = .nothing → step s = .next { s with presented := rest }))

/-! ### Encoding -/

/-- R88, R89: decoding the port word of an operation gives it back, every operand kept, for every operation. -/
def Obligations.DecodeOfEncodeIsIdentity : Prop :=
  ∀ i : Instr, decode (encode i) = .operation i

/-- R89: a framer word that presents an operation is that operation's word but for the ignored bits. -/
def Obligations.FramerWordsDifferOnlyInIgnoredBits : Prop :=
  ∀ (fp : BitVec 12) (i : Instr), decode (.framer fp) = .operation i →
    encode i = .framer (fp &&& 0xF00) ∧ (∃ dc, i = .beginWrite dc) ∨
    encode i = .framer (fp &&& 0xEFF) ∧ (∃ d, i = .byte d) ∨
    encode i = .framer (fp &&& 0xE00) ∧ i = .endWrite

/-- R88 (D21): the operation of each index 0 to 19, in the spec's order; the encoder port presents an operation exactly
for these indices, a different one for each, and each is an encoder operation. -/
def Obligations.EncoderIndexSelectsTwentyOperations : Prop :=
  (∀ n : Nat,
    decode (.encoder 0 n) = .operation .dispon ∧ decode (.encoder 1 n) = .operation .dispoff ∧
    decode (.encoder 2 n) = .operation .vidnorm ∧ decode (.encoder 3 n) = .operation .vidinv ∧
    decode (.encoder 4 n) = .operation .allnorm ∧ decode (.encoder 5 n) = .operation .allon ∧
    decode (.encoder 6 n) = .operation .segnorm ∧ decode (.encoder 7 n) = .operation .segrev ∧
    decode (.encoder 8 n) = .operation .comnorm ∧ decode (.encoder 9 n) = .operation .comrev ∧
    decode (.encoder 10 n) = .operation .pwron ∧ decode (.encoder 11 n) = .operation .pwroff ∧
    decode (.encoder 12 n) = .operation .swreset ∧ decode (.encoder 13 n) = .operation .nop ∧
    decode (.encoder 14 n) = .operation (.ratio n) ∧ decode (.encoder 15 n) = .operation (.ev n) ∧
    decode (.encoder 16 n) = .operation (.page n) ∧ decode (.encoder 17 n) = .operation (.colmsb n) ∧
    decode (.encoder 18 n) = .operation (.collsb n) ∧ decode (.encoder 19 n) = .operation (.startline n)) ∧
  (∀ (esel : BitVec 5) (eparam : Nat),
    (esel.toNat < 20 → ∃ i, decode (.encoder esel eparam) = .operation i ∧ isEncoderOp i = true) ∧
    (20 ≤ esel.toNat → decode (.encoder esel eparam) = .unassigned (.encoderIndex esel))) ∧
  (∀ (e e' : BitVec 5) (n n' : Nat) (i : Instr),
    decode (.encoder e n) = .operation i → decode (.encoder e' n') = .operation i → e = e')

/-- R94, R7: under the default catalog (PRESUMED, log entry 2) a byte is the command of at most one row of the
opcode map; reading it back (log entry 12) gives an operation that produces it; each fixed opcode reads back as
itself, and a field command as the operation with the same field, COLMSB as a multiple of 16 (log entry 23). -/
def Obligations.CommandBytesReadBack : Prop :=
  (∀ b : Byte, ((commandRows defaultCatalog).filter fun r => b &&& r.mask == r.base).length ≤ 1) ∧
  (∀ i ∈ [Instr.dispon, .dispoff, .vidnorm, .vidinv, .allnorm, .allon, .segnorm, .segrev, .comnorm, .comrev, .pwron,
      .pwroff, .swreset, .nop],
    (commandByte defaultCatalog i).bind (readCommandByte defaultCatalog) = some i) ∧
  (∀ (b : Byte) (i : Instr), readCommandByte defaultCatalog b = some i → commandByte defaultCatalog i = some b) ∧
  (∀ (i : Instr) (b : Byte), commandByte defaultCatalog i = some b →
    ∃ j, readCommandByte defaultCatalog b = some j ∧ commandByte defaultCatalog j = some b) ∧
  (∀ r c p k l n : Nat, r < 8 → c < 32 → p < 16 → k < 8 → l < 16 → n < 64 →
    (commandByte defaultCatalog (.ratio r)).bind (readCommandByte defaultCatalog) = some (.ratio r) ∧
    (commandByte defaultCatalog (.ev c)).bind (readCommandByte defaultCatalog) = some (.ev c) ∧
    (commandByte defaultCatalog (.page p)).bind (readCommandByte defaultCatalog) = some (.page p) ∧
    (commandByte defaultCatalog (.colmsb (16 * k))).bind (readCommandByte defaultCatalog) = some (.colmsb (16 * k)) ∧
    (commandByte defaultCatalog (.collsb l)).bind (readCommandByte defaultCatalog) = some (.collsb l) ∧
    (commandByte defaultCatalog (.startline n)).bind (readCommandByte defaultCatalog) = some (.startline n))

/-- R88, R89: a few port words, written out bit by bit, and what they present. -/
def Obligations.SampleWordsDecode : Prop :=
  decode (.framer 0b100100000000) = .operation (.beginWrite true) ∧
  decode (.framer 0b100000000000) = .operation (.beginWrite false) ∧
  decode (.framer 0b010010101110) = .operation (.byte 0xAE) ∧
  decode (.framer 0b001000000000) = .operation .endWrite ∧
  decode (.framer 0b000111111111) = .nothing ∧
  decode (.encoder 0b00000 0) = .operation .dispon ∧
  decode (.encoder 0b01100 0) = .operation .swreset ∧
  decode (.encoder 0b01111 0x10) = .operation (.ev 0x10) ∧
  decode (.encoder 0b10001 95) = .operation (.colmsb 95)
end

