-- ==== Sys2Proof/Laws/State.lean ====
section
/-! SUPPORT. What the named updates of State change and what they leave alone, one lemma per field. -/

namespace Sys2Proof.Machine

@[simp] theorem emit_params (s : State) (e : Event) : (s.emit e).params = s.params := rfl
@[simp] theorem emit_buf (s : State) (e : Event) : (s.emit e).buf = s.buf := rfl
@[simp] theorem emit_dc (s : State) (e : Event) : (s.emit e).dc = s.dc := rfl
@[simp] theorem emit_phase (s : State) (e : Event) : (s.emit e).phase = s.phase := rfl
@[simp] theorem emit_cnt (s : State) (e : Event) : (s.emit e).cnt = s.cnt := rfl
@[simp] theorem emit_sel (s : State) (e : Event) : (s.emit e).sel = s.sel := rfl
@[simp] theorem emit_session (s : State) (e : Event) : (s.emit e).session = s.session := rfl
@[simp] theorem emit_cfg (s : State) (e : Event) : (s.emit e).cfg = s.cfg := rfl
@[simp] theorem emit_trace (s : State) (e : Event) : (s.emit e).trace = s.trace ++ [e] := rfl
@[simp] theorem emit_replies (s : State) (e : Event) : (s.emit e).replies = s.replies := rfl
@[simp] theorem emit_presented (s : State) (e : Event) : (s.emit e).presented = s.presented := rfl
@[simp] theorem emit_transport (s : State) (e : Event) : (s.emit e).transport = s.transport := rfl
@[simp] theorem emit_freeCount (s : State) (e : Event) : (s.emit e).freeCount = s.freeCount := rfl

@[simp] theorem reply_params (s : State) (r : Reply) : (s.reply r).params = s.params := rfl
@[simp] theorem reply_buf (s : State) (r : Reply) : (s.reply r).buf = s.buf := rfl
@[simp] theorem reply_dc (s : State) (r : Reply) : (s.reply r).dc = s.dc := rfl
@[simp] theorem reply_phase (s : State) (r : Reply) : (s.reply r).phase = s.phase := rfl
@[simp] theorem reply_cnt (s : State) (r : Reply) : (s.reply r).cnt = s.cnt := rfl
@[simp] theorem reply_sel (s : State) (r : Reply) : (s.reply r).sel = s.sel := rfl
@[simp] theorem reply_session (s : State) (r : Reply) : (s.reply r).session = s.session := rfl
@[simp] theorem reply_cfg (s : State) (r : Reply) : (s.reply r).cfg = s.cfg := rfl
@[simp] theorem reply_trace (s : State) (r : Reply) : (s.reply r).trace = s.trace := rfl
@[simp] theorem reply_replies (s : State) (r : Reply) : (s.reply r).replies = s.replies ++ [r] := rfl
@[simp] theorem reply_presented (s : State) (r : Reply) : (s.reply r).presented = s.presented := rfl
@[simp] theorem reply_transport (s : State) (r : Reply) : (s.reply r).transport = s.transport := rfl
@[simp] theorem reply_freeCount (s : State) (r : Reply) : (s.reply r).freeCount = s.freeCount := rfl

@[simp] theorem assertSelect_params (s : State) : (s.assertSelect).params = s.params := by
  cases h : s.sel <;> simp [State.assertSelect, h]
@[simp] theorem assertSelect_buf (s : State) : (s.assertSelect).buf = s.buf := by
  cases h : s.sel <;> simp [State.assertSelect, h]
@[simp] theorem assertSelect_dc (s : State) : (s.assertSelect).dc = s.dc := by
  cases h : s.sel <;> simp [State.assertSelect, h]
@[simp] theorem assertSelect_phase (s : State) : (s.assertSelect).phase = s.phase := by
  cases h : s.sel <;> simp [State.assertSelect, h]
@[simp] theorem assertSelect_cnt (s : State) : (s.assertSelect).cnt = s.cnt := by
  cases h : s.sel <;> simp [State.assertSelect, h]
@[simp] theorem assertSelect_sel (s : State) : (s.assertSelect).sel = true := by
  cases h : s.sel <;> simp [State.assertSelect, h]
@[simp] theorem assertSelect_session (s : State) : (s.assertSelect).session = s.session := by
  cases h : s.sel <;> simp [State.assertSelect, h]
@[simp] theorem assertSelect_cfg (s : State) : (s.assertSelect).cfg = s.cfg := by
  cases h : s.sel <;> simp [State.assertSelect, h]
@[simp] theorem assertSelect_trace (s : State) : (s.assertSelect).trace = s.trace ++ (if s.sel then [] else [.select]) := by
  cases h : s.sel <;> simp [State.assertSelect, h]
@[simp] theorem assertSelect_replies (s : State) : (s.assertSelect).replies = s.replies := by
  cases h : s.sel <;> simp [State.assertSelect, h]
@[simp] theorem assertSelect_presented (s : State) : (s.assertSelect).presented = s.presented := by
  cases h : s.sel <;> simp [State.assertSelect, h]
@[simp] theorem assertSelect_transport (s : State) : (s.assertSelect).transport = s.transport := by
  cases h : s.sel <;> simp [State.assertSelect, h]
@[simp] theorem assertSelect_freeCount (s : State) : (s.assertSelect).freeCount = s.freeCount := by
  cases h : s.sel <;> simp [State.assertSelect, h]

@[simp] theorem releaseSelect_params (s : State) : (s.releaseSelect).params = s.params := by
  cases h : s.sel <;> simp [State.releaseSelect, h]
@[simp] theorem releaseSelect_buf (s : State) : (s.releaseSelect).buf = s.buf := by
  cases h : s.sel <;> simp [State.releaseSelect, h]
@[simp] theorem releaseSelect_dc (s : State) : (s.releaseSelect).dc = s.dc := by
  cases h : s.sel <;> simp [State.releaseSelect, h]
@[simp] theorem releaseSelect_phase (s : State) : (s.releaseSelect).phase = s.phase := by
  cases h : s.sel <;> simp [State.releaseSelect, h]
@[simp] theorem releaseSelect_cnt (s : State) : (s.releaseSelect).cnt = s.cnt := by
  cases h : s.sel <;> simp [State.releaseSelect, h]
@[simp] theorem releaseSelect_sel (s : State) : (s.releaseSelect).sel = false := by
  cases h : s.sel <;> simp [State.releaseSelect, h]
@[simp] theorem releaseSelect_session (s : State) : (s.releaseSelect).session = s.session := by
  cases h : s.sel <;> simp [State.releaseSelect, h]
@[simp] theorem releaseSelect_cfg (s : State) : (s.releaseSelect).cfg = s.cfg := by
  cases h : s.sel <;> simp [State.releaseSelect, h]
@[simp] theorem releaseSelect_trace (s : State) : (s.releaseSelect).trace = s.trace ++ (if s.sel then [.deselect] else []) := by
  cases h : s.sel <;> simp [State.releaseSelect, h]
@[simp] theorem releaseSelect_replies (s : State) : (s.releaseSelect).replies = s.replies := by
  cases h : s.sel <;> simp [State.releaseSelect, h]
@[simp] theorem releaseSelect_presented (s : State) : (s.releaseSelect).presented = s.presented := by
  cases h : s.sel <;> simp [State.releaseSelect, h]
@[simp] theorem releaseSelect_transport (s : State) : (s.releaseSelect).transport = s.transport := by
  cases h : s.sel <;> simp [State.releaseSelect, h]
@[simp] theorem releaseSelect_freeCount (s : State) : (s.releaseSelect).freeCount = s.freeCount := by
  cases h : s.sel <;> simp [State.releaseSelect, h]

@[simp] theorem optionalDeselect_params (s : State) : (optionalDeselect s).params = s.params := by
  cases h : Config.deselectAfterFail s.freeCount <;> simp [optionalDeselect, h]
@[simp] theorem optionalDeselect_buf (s : State) : (optionalDeselect s).buf = s.buf := by
  cases h : Config.deselectAfterFail s.freeCount <;> simp [optionalDeselect, h]
@[simp] theorem optionalDeselect_dc (s : State) : (optionalDeselect s).dc = s.dc := by
  cases h : Config.deselectAfterFail s.freeCount <;> simp [optionalDeselect, h]
@[simp] theorem optionalDeselect_phase (s : State) : (optionalDeselect s).phase = s.phase := by
  cases h : Config.deselectAfterFail s.freeCount <;> simp [optionalDeselect, h]
@[simp] theorem optionalDeselect_cnt (s : State) : (optionalDeselect s).cnt = s.cnt := by
  cases h : Config.deselectAfterFail s.freeCount <;> simp [optionalDeselect, h]
@[simp] theorem optionalDeselect_sel (s : State) : (optionalDeselect s).sel = s.sel := by
  cases h : Config.deselectAfterFail s.freeCount <;> simp [optionalDeselect, h]
@[simp] theorem optionalDeselect_session (s : State) : (optionalDeselect s).session = s.session := by
  cases h : Config.deselectAfterFail s.freeCount <;> simp [optionalDeselect, h]
@[simp] theorem optionalDeselect_cfg (s : State) : (optionalDeselect s).cfg = s.cfg := by
  cases h : Config.deselectAfterFail s.freeCount <;> simp [optionalDeselect, h]
@[simp] theorem optionalDeselect_trace (s : State) : (optionalDeselect s).trace = s.trace ++ (if Config.deselectAfterFail s.freeCount then [.deselect] else []) := by
  cases h : Config.deselectAfterFail s.freeCount <;> simp [optionalDeselect, h]
@[simp] theorem optionalDeselect_replies (s : State) : (optionalDeselect s).replies = s.replies := by
  cases h : Config.deselectAfterFail s.freeCount <;> simp [optionalDeselect, h]
@[simp] theorem optionalDeselect_presented (s : State) : (optionalDeselect s).presented = s.presented := by
  cases h : Config.deselectAfterFail s.freeCount <;> simp [optionalDeselect, h]
@[simp] theorem optionalDeselect_transport (s : State) : (optionalDeselect s).transport = s.transport := by
  cases h : Config.deselectAfterFail s.freeCount <;> simp [optionalDeselect, h]
@[simp] theorem optionalDeselect_freeCount (s : State) : (optionalDeselect s).freeCount = s.freeCount := by
  cases h : Config.deselectAfterFail s.freeCount <;> simp [optionalDeselect, h]

@[simp] theorem pulseResetLine_params (s : State) : (pulseResetLine s).params = s.params := by
  cases h : s.params.hasResetLine <;> simp [pulseResetLine, h]
@[simp] theorem pulseResetLine_buf (s : State) : (pulseResetLine s).buf = s.buf := by
  cases h : s.params.hasResetLine <;> simp [pulseResetLine, h]
@[simp] theorem pulseResetLine_dc (s : State) : (pulseResetLine s).dc = s.dc := by
  cases h : s.params.hasResetLine <;> simp [pulseResetLine, h]
@[simp] theorem pulseResetLine_phase (s : State) : (pulseResetLine s).phase = s.phase := by
  cases h : s.params.hasResetLine <;> simp [pulseResetLine, h]
@[simp] theorem pulseResetLine_cnt (s : State) : (pulseResetLine s).cnt = s.cnt := by
  cases h : s.params.hasResetLine <;> simp [pulseResetLine, h]
@[simp] theorem pulseResetLine_sel (s : State) : (pulseResetLine s).sel = s.sel := by
  cases h : s.params.hasResetLine <;> simp [pulseResetLine, h]
@[simp] theorem pulseResetLine_session (s : State) : (pulseResetLine s).session = s.session := by
  cases h : s.params.hasResetLine <;> simp [pulseResetLine, h]
@[simp] theorem pulseResetLine_cfg (s : State) : (pulseResetLine s).cfg = s.cfg := by
  cases h : s.params.hasResetLine <;> simp [pulseResetLine, h]
@[simp] theorem pulseResetLine_trace (s : State) : (pulseResetLine s).trace = s.trace ++ (if s.params.hasResetLine then [.resetLine .low, .wait 5, .resetLine .high, .wait 5] else []) := by
  cases h : s.params.hasResetLine <;> simp [pulseResetLine, h]
@[simp] theorem pulseResetLine_replies (s : State) : (pulseResetLine s).replies = s.replies := by
  cases h : s.params.hasResetLine <;> simp [pulseResetLine, h]
@[simp] theorem pulseResetLine_presented (s : State) : (pulseResetLine s).presented = s.presented := by
  cases h : s.params.hasResetLine <;> simp [pulseResetLine, h]
@[simp] theorem pulseResetLine_transport (s : State) : (pulseResetLine s).transport = s.transport := by
  cases h : s.params.hasResetLine <;> simp [pulseResetLine, h]
@[simp] theorem pulseResetLine_freeCount (s : State) : (pulseResetLine s).freeCount = s.freeCount := by
  cases h : s.params.hasResetLine <;> simp [pulseResetLine, h]

@[simp] theorem blockReset_params (s : State) : (blockReset s).params = s.params := rfl
@[simp] theorem blockReset_buf (s : State) : (blockReset s).buf = Octets.zero := rfl
@[simp] theorem blockReset_dc (s : State) : (blockReset s).dc = Config.dcAfterReset s.freeCount := rfl
@[simp] theorem blockReset_phase (s : State) : (blockReset s).phase = .idle := rfl
@[simp] theorem blockReset_cnt (s : State) : (blockReset s).cnt = 0 := rfl
@[simp] theorem blockReset_sel (s : State) : (blockReset s).sel = false := rfl
@[simp] theorem blockReset_session (s : State) : (blockReset s).session = s.session := rfl
@[simp] theorem blockReset_cfg (s : State) : (blockReset s).cfg = s.cfg := rfl
@[simp] theorem blockReset_trace (s : State) : (blockReset s).trace = s.trace := rfl
@[simp] theorem blockReset_replies (s : State) : (blockReset s).replies = s.replies := rfl
@[simp] theorem blockReset_presented (s : State) : (blockReset s).presented = s.presented := rfl
@[simp] theorem blockReset_transport (s : State) : (blockReset s).transport = s.transport := rfl
@[simp] theorem blockReset_freeCount (s : State) : (blockReset s).freeCount = s.freeCount + 1 := rfl

@[simp] theorem constructSession_params (s : State) : (constructSession s).params = s.params := rfl
@[simp] theorem constructSession_buf (s : State) : (constructSession s).buf = s.buf := rfl
@[simp] theorem constructSession_dc (s : State) : (constructSession s).dc = s.dc := rfl
@[simp] theorem constructSession_phase (s : State) : (constructSession s).phase = s.phase := rfl
@[simp] theorem constructSession_cnt (s : State) : (constructSession s).cnt = s.cnt := rfl
@[simp] theorem constructSession_sel (s : State) : (constructSession s).sel = s.sel := rfl
@[simp] theorem constructSession_session (s : State) : (constructSession s).session = .unconfigured := rfl
@[simp] theorem constructSession_cfg (s : State) : (constructSession s).cfg = Config.cfgAtConstruction s.freeCount := rfl
@[simp] theorem constructSession_trace (s : State) : (constructSession s).trace = s.trace := rfl
@[simp] theorem constructSession_replies (s : State) : (constructSession s).replies = s.replies := rfl
@[simp] theorem constructSession_presented (s : State) : (constructSession s).presented = s.presented := rfl
@[simp] theorem constructSession_transport (s : State) : (constructSession s).transport = s.transport := rfl
@[simp] theorem constructSession_freeCount (s : State) : (constructSession s).freeCount = s.freeCount + 1 := rfl

end Sys2Proof.Machine
end

