-- ==== Sys2Proof/Laws/Ops.lean ====
section
/-! SUPPORT. One lemma per shared operation that says everything it can do, and the frame of the port operations. -/

namespace Sys2Proof.Machine

/-! ### Sequencing -/

@[simp] theorem Ran.done_andThen (s : State) (k : State → Ran) : (Ran.done s).andThen k = k s := rfl
@[simp] theorem Ran.raised_andThen (f : OpFault) (s : State) (k : State → Ran) : (Ran.raised f s).andThen k = .raised f s := rfl
@[simp] theorem Ran.unanswered_andThen (k : State → Ran) : Ran.unanswered.andThen k = .unanswered := rfl
@[simp] theorem Ran.finish_done (s : State) : (Ran.done s).finish = .next (s.reply .done) := rfl
@[simp] theorem Ran.finish_raised (f : OpFault) (s : State) : (Ran.raised f s).finish = .next (s.reply (.fault f)) := rfl
@[simp] theorem Ran.finish_unanswered : Ran.unanswered.finish = .fault .transportUnanswered := rfl

theorem Ran.andThen_assoc (r : Ran) (k l : State → Ran) :
    (r.andThen k).andThen l = r.andThen fun s => (k s).andThen l := by
  cases r <;> rfl

/-- What holds of the way a part of an operation ends: `d` of the state it is done in, `f` of a fault and the
state it is raised in. -/
def Ran.Sat (d : State → Prop) (f : OpFault → State → Prop) : Ran → Prop
  | .done s => d s
  | .raised e s => f e s
  | .unanswered => True

theorem Ran.Sat.andThen {d d' : State → Prop} {f : OpFault → State → Prop} {r : Ran} {k : State → Ran}
    (h : r.Sat d f) (hk : ∀ s, d s → (k s).Sat d' f) : (r.andThen k).Sat d' f := by
  cases r with
  | done s => exact hk s h
  | raised e s => exact h
  | unanswered => trivial

theorem Ran.Sat.mono {d d' : State → Prop} {f f' : OpFault → State → Prop} {r : Ran}
    (h : r.Sat d f) (hd : ∀ s, d s → d' s) (hf : ∀ e s, f e s → f' e s) : r.Sat d' f' := by
  cases r with
  | done s => exact hd s h
  | raised e s => exact hf e s h
  | unanswered => trivial

theorem Ran.Sat.and {d d' : State → Prop} {f f' : OpFault → State → Prop} {r : Ran}
    (h : r.Sat d f) (h' : r.Sat d' f') : r.Sat (fun s => d s ∧ d' s) (fun e s => f e s ∧ f' e s) := by
  cases r with
  | done s => exact ⟨h, h'⟩
  | raised e s => exact ⟨h, h'⟩
  | unanswered => trivial

/-! ### The transport -/

theorem Transport.next_eq_none_iff (t : Transport) : t.next = none ↔ t.script = [] ∧ t.afterwards = .never := by
  obtain ⟨script, afterwards, answered⟩ := t
  cases script <;> cases afterwards <;> simp [Transport.next]

theorem Transport.next_afterwards {t u : Transport} {a : Answer} (h : t.next = some (a, u)) : u.afterwards = t.afterwards := by
  obtain ⟨script, afterwards, answered⟩ := t
  cases script <;> cases afterwards <;> simp [Transport.next] at h <;> simp [← h.2]

/-- After `n` ok answers, `m` more. -/
theorem Transport.afterOks_add (n m : Nat) (t : Transport) :
    t.afterOks (n + m) = (t.afterOks n).bind (Transport.afterOks m) := by
  induction n generalizing t with
  | zero => simp [Transport.afterOks]
  | succ n ih =>
    rw [Nat.succ_add]
    simp only [Transport.afterOks]
    split <;> simp [ih]

/-- One ok answer. -/
theorem Transport.afterOks_succ_eq_some_iff (n : Nat) (t u : Transport) :
    t.afterOks (n + 1) = some u ↔ ∃ v, t.next = some (.ok, v) ∧ v.afterOks n = some u := by
  simp only [Transport.afterOks]
  split <;> simp_all

/-! ### Handing a group to the transport (R157, R219) -/

/-- What follows a failed `Tx` in the trace: `Deselect` or nothing (R220). -/
def failTail (s : State) : List Event := if Config.deselectAfterFail s.freeCount then [.deselect] else []

theorem failTail_cases (s : State) : failTail s = [] ∨ failTail s = [.deselect] := by
  unfold failTail
  split <;> simp

/-- The state a failed transmit of `group` leaves (R219), the transport being `t` then. -/
def failedState (s : State) (group : Octets) (t : Transport) : State :=
  { s with
    buf := Octets.zero, cnt := 0, phase := .idle, sel := false, transport := t
    trace := s.trace ++ ([.tx group] ++ failTail s)
    freeCount := s.freeCount + 1 }

theorem transmitGroup_of_ok {s : State} {t : Transport} (h : s.transport.next = some (.ok, t)) :
    transmitGroup s =
      .done { s with trace := s.trace ++ [.tx s.buf], transport := t, buf := Octets.zero, cnt := 0 } := by
  simp [transmitGroup, h, State.emit]

theorem transmitGroup_of_fail {s : State} {t : Transport} {err : TransportError}
    (h : s.transport.next = some (.fail err, t)) :
    transmitGroup s = .raised (.eTransport err) (failedState s s.buf t) := by
  cases hd : Config.deselectAfterFail s.freeCount <;>
    simp [transmitGroup, h, transportFail, optionalDeselect, failedState, failTail, State.emit, hd]

theorem transmitGroup_of_none {s : State} (h : s.transport.next = none) : transmitGroup s = .unanswered := by
  simp [transmitGroup, h]

/-! ### The body of BYTE (R157) -/

theorem packByte_of_le {s : State} (d : Byte) (h : s.cnt.val ≤ 6) :
    packByte d s = .done { s with buf := packSlot s.dc s.cnt d s.buf, cnt := s.cnt + 1 } := by
  simp [packByte, h]

theorem packByte_of_last {s : State} (d : Byte) (h : s.cnt = 7) :
    packByte d s = transmitGroup { s with buf := packSlot s.dc 7 d s.buf } := by
  simp [packByte, h]

/-! ### The port operations (R156 to R159) -/

theorem beginPort_of_idle {s : State} (dc : Bool) (h : s.phase = .idle) :
    beginPort dc s =
      .done { s with phase := .active, dc := dc, cnt := 0, buf := Octets.zero, sel := s.params.emptyWriteSelects
                     trace := s.trace ++ (if s.params.emptyWriteSelects then [.select] else []) } := by
  cases he : s.params.emptyWriteSelects <;> simp [beginPort, h, he, State.assertSelect, State.emit]

theorem beginPort_of_active {s : State} (dc : Bool) (h : s.phase = .active) :
    beginPort dc s = .raised (.eProtocol .beginWhileActive) s := by
  simp [beginPort, h]

theorem bytePort_of_active {s : State} (d : Byte) (h : s.phase = .active) : bytePort d s = packByte d s.assertSelect := by
  simp [bytePort, h]

theorem bytePort_of_idle {s : State} (d : Byte) (h : s.phase = .idle) :
    bytePort d s = .raised (.eProtocol .byteWhileIdle) s := by
  simp [bytePort, h]

theorem endPort_of_active {s : State} (h : s.phase = .active) :
    endPort s = (padGroup 8 s).andThen fun t => .done { t.releaseSelect with phase := .idle } := by
  simp [endPort, h]

theorem endPort_of_idle {s : State} (h : s.phase = .idle) : endPort s = .raised (.eProtocol .endWhileIdle) s := by
  simp [endPort, h]

theorem bytesPort_append (p q : List Byte) (s : State) :
    bytesPort (p ++ q) s = (bytesPort p s).andThen (bytesPort q) := by
  induction p generalizing s with
  | nil => rfl
  | cons d p ih =>
    simp only [List.cons_append, bytesPort, Ran.andThen_assoc]
    congr
    funext t
    exact ih t

/-- A fill loop that has as many rounds as the group has free slots packs the filler into each of them. -/
theorem padGroup_step {s : State} (fuel : Nat) (h : s.cnt ≠ 0) :
    padGroup (fuel + 1) s = (packByte s.params.filler s).andThen (padGroup fuel) := by
  simp [padGroup, h]

theorem padGroup_of_start {s : State} (fuel : Nat) (h : s.cnt = 0) : padGroup fuel s = .done s := by
  cases fuel <;> simp [padGroup, h]

/-! ### What the port operations leave alone (R28) -/

/-- The frame of the framer's operations: they touch no parameter, no state of the host layer, no reply and
nothing the host has still to present, and they only add to the trace (R28, R67 (b)), never a reset-line event (R228). -/
structure PortFrame (s t : State) : Prop where
  params     : t.params = s.params
  session    : t.session = s.session
  cfg        : t.cfg = s.cfg
  replies    : t.replies = s.replies
  presented  : t.presented = s.presented
  afterwards : t.transport.afterwards = s.transport.afterwards
  trace      : ∃ es, t.trace = s.trace ++ es ∧ ∀ level, Event.resetLine level ∉ es

theorem PortFrame.refl (s : State) : PortFrame s s := ⟨rfl, rfl, rfl, rfl, rfl, rfl, [], by simp, by simp⟩

theorem PortFrame.trans {s t u : State} (h : PortFrame s t) (k : PortFrame t u) : PortFrame s u := by
  obtain ⟨es, he, hr⟩ := h.trace
  obtain ⟨es', he', hr'⟩ := k.trace
  exact ⟨k.params.trans h.params, k.session.trans h.session, k.cfg.trans h.cfg, k.replies.trans h.replies,
    k.presented.trans h.presented, k.afterwards.trans h.afterwards, es ++ es', by simp [he', he],
    fun level hm => (List.mem_append.1 hm).elim (hr level) (hr' level)⟩

/-- A part of a framer operation, run from `s`, keeps the frame of `s`; its only faults are failed transmits. -/
def Ran.Framed (s : State) (r : Ran) : Prop :=
  r.Sat (PortFrame s) fun f t => PortFrame s t ∧ ∃ err, f = .eTransport err ∧ t.phase = .idle ∧ t.cnt = 0 ∧
    t.buf = Octets.zero ∧ t.sel = false

theorem Ran.Framed.andThen {s : State} {r : Ran} {k : State → Ran} (h : r.Framed s)
    (hk : ∀ t, PortFrame s t → (k t).Framed t) : (r.andThen k).Framed s := by
  refine Ran.Sat.andThen h fun t ht => ?_
  exact (hk t ht).mono (fun u hu => ht.trans hu) (fun e u hu => ⟨ht.trans hu.1, hu.2⟩)

theorem transmitGroup_framed (s : State) : (transmitGroup s).Framed s := by
  rcases h : s.transport.next with _ | ⟨_ | err, t⟩
  · rw [transmitGroup_of_none h]; trivial
  · rw [transmitGroup_of_ok h]
    exact ⟨rfl, rfl, rfl, rfl, rfl, Transport.next_afterwards h, _, rfl, by simp⟩
  · rw [transmitGroup_of_fail h]
    have hr : ∀ level, Event.resetLine level ∉ [Event.tx s.buf] ++ failTail s := by
      intro level
      rcases failTail_cases s with ht | ht <;> simp [ht]
    exact ⟨⟨rfl, rfl, rfl, rfl, rfl, Transport.next_afterwards h, _, rfl, hr⟩, err, rfl, rfl, rfl, rfl, rfl⟩

theorem packByte_framed (d : Byte) (s : State) : (packByte d s).Framed s := by
  unfold packByte
  split
  · exact ⟨rfl, rfl, rfl, rfl, rfl, rfl, [], by simp, by simp⟩
  · exact (transmitGroup_framed { s with buf := packSlot s.dc s.cnt d s.buf }).mono
      (fun t ht => ⟨ht.params, ht.session, ht.cfg, ht.replies, ht.presented, ht.afterwards, ht.trace⟩)
      (fun e t ht => ⟨⟨ht.1.params, ht.1.session, ht.1.cfg, ht.1.replies, ht.1.presented, ht.1.afterwards, ht.1.trace⟩, ht.2⟩)

theorem assertSelect_frame (s : State) : PortFrame s s.assertSelect :=
  ⟨by simp, by simp, by simp, by simp, by simp, by simp, _, assertSelect_trace s,
    by cases s.sel <;> simp⟩

theorem releaseSelect_frame (s : State) : PortFrame s s.releaseSelect :=
  ⟨by simp, by simp, by simp, by simp, by simp, by simp, _, releaseSelect_trace s,
    by cases s.sel <;> simp⟩

theorem padGroup_framed (fuel : Nat) (s : State) : (padGroup fuel s).Framed s := by
  induction fuel generalizing s with
  | zero => exact PortFrame.refl s
  | succ fuel ih =>
    unfold padGroup
    split
    · exact PortFrame.refl s
    · exact (packByte_framed _ s).andThen fun t _ => ih t

/-- Only a BYTE that finds an open write goes on; it leaves the write open. -/
theorem packByte_phase (d : Byte) {s : State} (h : s.phase = .active) :
    (packByte d s).Sat (fun t => t.phase = .active) fun _ _ => True := by
  unfold packByte
  split
  · exact h
  · rcases ht : s.transport.next with _ | ⟨_ | err, t⟩
    · rw [transmitGroup_of_none (by exact ht)]; trivial
    · rw [transmitGroup_of_ok (by exact ht)]; exact h
    · rw [transmitGroup_of_fail (by exact ht)]; trivial

theorem bytePort_framed (d : Byte) {s : State} (h : s.phase = .active) : (bytePort d s).Framed s := by
  rw [bytePort_of_active d h]
  exact (packByte_framed d s.assertSelect).mono (fun t ht => (assertSelect_frame s).trans ht)
    (fun e t ht => ⟨(assertSelect_frame s).trans ht.1, ht.2⟩)

theorem bytesPort_framed (p : List Byte) {s : State} (h : s.phase = .active) :
    (bytesPort p s).Framed s ∧ (bytesPort p s).Sat (fun t => t.phase = .active) fun _ _ => True := by
  induction p generalizing s with
  | nil => exact ⟨PortFrame.refl s, h⟩
  | cons d p ih =>
    have hp : (bytePort d s).Sat (fun t => t.phase = .active) fun _ _ => True := by
      rw [bytePort_of_active d h]
      exact packByte_phase d (by simpa using h)
    have hd := (bytePort_framed d h).and hp
    constructor
    · refine Ran.Sat.andThen (hd.mono (fun t ht => ht) (fun e t ht => ht.1)) fun t ht => ?_
      exact (ih ht.2).1.mono (fun u hu => ht.1.trans hu) (fun e u hu => ⟨ht.1.trans hu.1, hu.2⟩)
    · exact hp.andThen fun t ht => (ih ht).2

theorem endPort_framed {s : State} (h : s.phase = .active) :
    (endPort s).Framed s ∧ (endPort s).Sat (fun t => t.phase = .idle) fun _ _ => True := by
  rw [endPort_of_active h]
  constructor
  · refine (padGroup_framed 8 s).andThen fun t _ => ?_
    have ht := releaseSelect_frame t
    exact ⟨ht.params, ht.session, ht.cfg, ht.replies, ht.presented, ht.afterwards, ht.trace⟩
  · rcases hr : padGroup 8 s with t | ⟨e, t⟩ | _
    · exact rfl
    · trivial
    · trivial

/-- A logical write begun while IDLE keeps the frame and ends in IDLE, done or failed (R159, R219). -/
theorem logicalWrite_framed (dc : Bool) (p : List Byte) {s : State} (h : s.phase = .idle) :
    (logicalWrite dc p s).Framed s ∧ (logicalWrite dc p s).Sat (fun t => t.phase = .idle) fun _ _ => True := by
  unfold logicalWrite
  rw [beginPort_of_idle dc h]
  generalize hb : (State.mk _ _ _ _ _ _ _ _ _ _ _ _ _) = b
  have fb : PortFrame s b := by subst hb; exact ⟨rfl, rfl, rfl, rfl, rfl, rfl, _, rfl, by cases s.params.emptyWriteSelects <;> simp⟩
  have pb : b.phase = .active := by subst hb; rfl
  have hbytes := (bytesPort_framed p pb).1.and (bytesPort_framed p pb).2
  constructor
  · have hb' : (bytesPort p b).Framed s := (bytesPort_framed p pb).1.mono (fun t ht => fb.trans ht)
      (fun e t ht => ⟨fb.trans ht.1, ht.2⟩)
    refine Ran.Sat.andThen (r := bytesPort p b) ((hb'.and (bytesPort_framed p pb).2).mono (fun t ht => ht) (fun e t ht => ht.1))
      fun t ht => ?_
    exact (endPort_framed ht.2).1.mono (fun u hu => ht.1.trans hu) (fun e u hu => ⟨ht.1.trans hu.1, hu.2⟩)
  · exact Ran.Sat.andThen (bytesPort_framed p pb).2 fun t ht => (endPort_framed ht).2

/-- The logical writes of a pseudo-operation, presented while IDLE. -/
theorem logicalWrites_framed (ws : List (Bool × List Byte)) {s : State} (h : s.phase = .idle) :
    (logicalWrites ws s).Framed s ∧ (logicalWrites ws s).Sat (fun t => t.phase = .idle) fun _ _ => True := by
  induction ws generalizing s with
  | nil => exact ⟨PortFrame.refl s, h⟩
  | cons w ws ih =>
    obtain ⟨dc, p⟩ := w
    have hw := logicalWrite_framed dc p h
    constructor
    · refine Ran.Sat.andThen ((hw.1.and hw.2).mono (fun t ht => ht) (fun e t ht => ht.1)) fun t ht => ?_
      exact (ih ht.2).1.mono (fun u hu => ht.1.trans hu) (fun e u hu => ⟨ht.1.trans hu.1, hu.2⟩)
    · exact hw.2.andThen fun t ht => (ih ht).2

/-- A non-empty list of writes presented inside an open write is refused at once (R214, R218). -/
theorem logicalWrites_of_active (w : Bool × List Byte) (ws : List (Bool × List Byte)) {s : State} (h : s.phase = .active) :
    logicalWrites (w :: ws) s = .raised (.eProtocol .beginWhileActive) s := by
  obtain ⟨dc, p⟩ := w
  simp [logicalWrites, logicalWrite, beginPort_of_active dc h]

end Sys2Proof.Machine
end

