-- ==== Sys2Proof/Laws/Framing.lean ====
section
/-! SUPPORT. How the port operations build wire groups: eight BYTEs are one PackGroup, and END's fill loop is BYTEs of the filler (the steps of R159's induction). -/

namespace Sys2Proof.Machine

/-- `PackGroup` slot by slot (R150). -/
theorem packGroup_eq_slots (dc : Bool) (chunk : Chunk) :
    packGroup dc chunk =
      packSlot dc 7 chunk[7] (packSlot dc 6 chunk[6] (packSlot dc 5 chunk[5] (packSlot dc 4 chunk[4]
        (packSlot dc 3 chunk[3] (packSlot dc 2 chunk[2] (packSlot dc 1 chunk[1] (packSlot dc 0 chunk[0] Octets.zero))))))) :=
  rfl

/-- Eight BYTEs from the start of a group hand exactly `PackGroup` of them to the transport (R157, R159). -/
theorem bytesPort_whole_group (chunk : Chunk) {s : State} (h : s.phase = .active) (hc : s.cnt = 0) (hb : s.buf = Octets.zero) :
    bytesPort chunk.toList s =
      (transmitGroup { s.assertSelect with buf := packGroup s.dc chunk, cnt := 7 }) := by
  obtain ⟨⟨l⟩, hl⟩ := chunk
  match l, hl with
  | [c0, c1, c2, c3, c4, c5, c6, c7], _ =>
    rw [packGroup_eq_slots]
    have hs : s.sel = false ∨ s.sel = true := by cases s.sel <;> simp
    obtain ⟨params, buf, dc, phase, cnt, sel, session, cfg, trace, replies, presented, transport, freeCount⟩ := s
    subst hc hb h
    have hk : ∀ r : Ran, (r.andThen fun s => .done s) = r := fun r => by cases r <;> rfl
    rcases hs with hs | hs <;> simp at hs <;> subst hs <;>
      simp [bytesPort, bytePort, packByte, State.assertSelect, State.emit, hk]

/-- After a group is handed over nothing is left to fill. -/
theorem transmitGroup_andThen_padGroup (fuel : Nat) (s : State) :
    (transmitGroup s).andThen (padGroup fuel) = transmitGroup s := by
  rcases h : s.transport.next with _ | ⟨_ | err, t⟩
  · rw [transmitGroup_of_none h]; rfl
  · rw [transmitGroup_of_ok h]; exact padGroup_of_start fuel rfl
  · rw [transmitGroup_of_fail h]; rfl

/-- END's fill loop is BYTEs of the filler, one for each free slot (R158). -/
theorem padGroup_eq_bytesPort (fuel n : Nat) {s : State} (h : s.phase = .active) (hs : s.sel = true)
    (hn : s.cnt.val + (n + 1) = 8) (hf : n + 1 ≤ fuel) (h0 : s.cnt ≠ 0) :
    padGroup fuel s = bytesPort (List.replicate (n + 1) s.params.filler) s := by
  induction n generalizing s fuel with
  | zero =>
    obtain ⟨fuel, rfl⟩ := Nat.exists_eq_add_of_le' hf
    have h7 : s.cnt = 7 := Fin.ext (by simpa using hn)
    have hk : ∀ r : Ran, (r.andThen fun s => .done s) = r := fun r => by cases r <;> rfl
    rw [padGroup_step _ h0, packByte_of_last _ h7, transmitGroup_andThen_padGroup]
    simp [bytesPort, bytePort, h, State.assertSelect, hs, packByte_of_last _ h7, hk]
  | succ n ih =>
    obtain ⟨fuel, rfl⟩ := Nat.exists_eq_add_of_le' (show 1 ≤ fuel by omega)
    have hle : s.cnt.val ≤ 6 := by omega
    have hcnt : (s.cnt + 1).val = s.cnt.val + 1 := by
      rw [Fin.val_add_one]; split
      · rename_i e; rw [e] at hle; simp at hle
      · rfl
    rw [padGroup_step _ h0, packByte_of_le _ hle]
    simp only [Ran.done_andThen]
    rw [ih (s := { s with buf := packSlot s.dc s.cnt s.params.filler s.buf, cnt := s.cnt + 1 }) fuel h hs
      (by simp only [hcnt]; omega) (by omega)
      (by intro e; have := congrArg Fin.val e; simp only [hcnt] at this; simp at this)]
    rw [List.replicate_succ (n := n + 1)]
    simp [bytesPort, bytePort, h, State.assertSelect, hs, packByte_of_le _ hle]

/-! ### A logical write as the list of its groups -/

/-- Hand over the given groups one after the other, asserting chip-select before the first. -/
def handOver : List Octets → State → Ran
  | [], s => .done s
  | g :: gs, s => (transmitGroup { s.assertSelect with buf := g, cnt := 7 }).andThen (handOver gs)

theorem handOver_append (gs gs' : List Octets) (s : State) :
    handOver (gs ++ gs') s = (handOver gs s).andThen (handOver gs') := by
  induction gs generalizing s with
  | nil => rfl
  | cons g gs ih =>
    simp only [List.cons_append, handOver, Ran.andThen_assoc]
    congr
    funext t
    exact ih t

/-- The end of a write with no partial group: chip-select released, IDLE (R158). -/
def closeWrite (s : State) : Ran := .done { s.releaseSelect with phase := .idle }

theorem endPort_of_group_start {s : State} (h : s.phase = .active) (hc : s.cnt = 0) : endPort s = closeWrite s := by
  rw [endPort_of_active h, padGroup_of_start 8 hc]
  rfl

/-- Fewer bytes than complete the group only fill slots. -/
theorem bytesPort_short (p : List Byte) {s : State} (h : s.phase = .active) (hl : s.cnt.val + p.length ≤ 7) (hs : s.sel = true) :
    ∃ b, bytesPort p s = .done { s with buf := b, cnt := ⟨s.cnt.val + p.length, by omega⟩ } := by
  induction p generalizing s with
  | nil => exact ⟨s.buf, by simp [bytesPort]⟩
  | cons d p ih =>
    simp only [List.length_cons] at hl
    have hcnt : (s.cnt + 1).val = s.cnt.val + 1 := by
      rw [Fin.val_add_one]; split
      · rename_i e; rw [e] at hl; simp at hl
      · rfl
    obtain ⟨b, hb⟩ := ih (s := { s with buf := packSlot s.dc s.cnt d s.buf, cnt := s.cnt + 1 }) h
      (by simp only [hcnt]; omega) hs
    refine ⟨b, ?_⟩
    rw [bytesPort, bytePort_of_active d h, State.assertSelect, if_pos hs, packByte_of_le d (by omega), Ran.done_andThen, hb]
    simp only [hcnt, List.length_cons]
    congr 2
    apply Fin.ext
    simp; omega

/-- BYTE asserts chip-select itself, so asserting it beforehand changes nothing (R157). -/
theorem bytesPort_assertSelect (d : Byte) (p : List Byte) {s : State} (h : s.phase = .active) :
    bytesPort (d :: p) s = bytesPort (d :: p) s.assertSelect := by
  have ha : s.assertSelect.assertSelect = s.assertSelect := by
    cases hs : s.sel <;> simp [State.assertSelect, hs]
  simp only [bytesPort, bytePort_of_active d h, bytePort_of_active d (show s.assertSelect.phase = .active by simpa using h), ha]

/-- Chunk g + 1 of a payload is chunk g of what follows its first eight bytes. -/
theorem chunkOf_drop (filler : Byte) (p : List Byte) (g : Nat) : chunkOf filler p (g + 1) = chunkOf filler (p.drop 8) g := by
  refine congrArg Vector.ofFn (funext fun j => ?_)
  simp only [List.getD_eq_getElem?_getD, List.getElem?_drop]
  rw [show 8 * (g + 1) + j.val = 8 + (8 * g + j.val) by omega]

theorem frame_of_full (filler : Byte) (dc : Bool) (p : List Byte) (h : 8 ≤ p.length) :
    frame filler dc p = packGroup dc (chunkOf filler p 0) :: frame filler dc (p.drop 8) := by
  have hc : groupCount p.length = groupCount (p.drop 8).length + 1 := by
    simp only [groupCount, List.length_drop]; omega
  simp only [frame, hc, List.range_succ_eq_map, List.map_cons, List.map_map, Function.comp_def, Nat.succ_eq_add_one,
    chunkOf_drop]

theorem frame_of_short (filler : Byte) (dc : Bool) (p : List Byte) (h : 0 < p.length) (h8 : p.length ≤ 8) :
    frame filler dc p = [packGroup dc (chunkOf filler p 0)] := by
  have hc : groupCount p.length = 1 := by simp only [groupCount]; omega
  simp [frame, hc]

@[simp] theorem frame_nil (filler : Byte) (dc : Bool) : frame filler dc [] = [] := rfl

/-- The first chunk of a payload as a list: its bytes, then the filler. -/
theorem chunkOf_zero_toList (filler : Byte) (p : List Byte) :
    (chunkOf filler p 0).toList = p.take 8 ++ List.replicate (8 - p.length) filler := by
  apply List.ext_getElem?
  intro j
  by_cases hj : j < 8
  · by_cases hp : j < p.length
    · rw [List.getElem?_append_left (by simp; omega)]
      simp [chunkOf, hj, hp, List.getD_eq_getElem?_getD]
    · rw [List.getElem?_append_right (by simp; omega)]
      have : min 8 p.length = p.length := by omega
      simp [chunkOf, hj, hp, List.getD_eq_getElem?_getD, List.getElem?_replicate, this]
      omega
  · simp [hj, List.length_append]
    omega

/-- R159's core: the BYTEs of a payload and END, from the start of a group, hand over exactly its frame and
then release chip-select, whatever the transport answers. -/
theorem bytesPort_endPort (p : List Byte) {s : State} (h : s.phase = .active) (hc : s.cnt = 0) (hb : s.buf = Octets.zero) :
    (bytesPort p s).andThen endPort = (handOver (frame s.params.filler s.dc p) s).andThen closeWrite := by
  match hp : p with
  | [] => exact endPort_of_group_start h hc
  | d :: rest =>
    by_cases hl : 8 ≤ (d :: rest).length
    · have hsplit : (d :: rest) = (chunkOf s.params.filler (d :: rest) 0).toList ++ (d :: rest).drop 8 := by
        rw [chunkOf_zero_toList, show 8 - (d :: rest).length = 0 by omega]
        simp only [List.replicate_zero, List.append_nil, List.take_append_drop]
      have hd : ((d :: rest).drop 8).length < (d :: rest).length := by simp only [List.length_drop, List.length_cons]; omega
      rw [frame_of_full _ _ _ hl]
      conv_lhs => rw [hsplit]
      rw [bytesPort_append, bytesPort_whole_group _ h hc hb]
      simp only [handOver, Ran.andThen_assoc]
      rcases ht : s.transport.next with _ | ⟨_ | err, t⟩
      · rw [transmitGroup_of_none (by simpa using ht)]; rfl
      · rw [transmitGroup_of_ok (by simpa using ht)]
        simp only [Ran.done_andThen]
        rw [bytesPort_endPort ((d :: rest).drop 8) (by simpa using h) rfl rfl]
        simp only [assertSelect_params, assertSelect_dc]
      · rw [transmitGroup_of_fail (by simpa using ht)]; rfl
    · rw [frame_of_short _ _ _ (by simp) (by omega)]
      simp only [handOver, Ran.andThen_assoc]
      have ha : s.assertSelect.phase = .active := by simpa using h
      obtain ⟨b, hbp⟩ := bytesPort_short (d :: rest) ha (by simp [hc]; simp at hl; omega) (by simp)
      have hcl : (chunkOf s.params.filler (d :: rest) 0).toList =
          (d :: rest) ++ List.replicate (8 - (d :: rest).length) s.params.filler := by
        rw [chunkOf_zero_toList, List.take_of_length_le (by omega)]
      have hw := bytesPort_whole_group (chunkOf s.params.filler (d :: rest) 0) h hc hb
      rw [hcl, bytesPort_append, bytesPort_assertSelect d rest h, hbp, Ran.done_andThen] at hw
      rw [bytesPort_assertSelect d rest h, hbp, Ran.done_andThen, endPort_of_active (by simpa using h)]
      have hn : 8 - (d :: rest).length = (7 - (d :: rest).length) + 1 := by omega
      rw [padGroup_eq_bytesPort 8 (7 - (d :: rest).length) (by simpa using h) (by simp) (by simp [hc]; simp at hl; omega) (by omega)
        (by intro e; have := congrArg Fin.val e; simp at this)]
      rw [hn] at hw
      simp only [assertSelect_params] at hw ⊢
      rw [hw]
      congr 1
termination_by p.length
decreasing_by subst hp; exact hd

/-- The state BEGIN leaves (R156). -/
def begun (dc : Bool) (s : State) : State :=
  { s with
    phase := .active, dc := dc, cnt := 0, buf := Octets.zero, sel := s.params.emptyWriteSelects
    trace := s.trace ++ (if s.params.emptyWriteSelects then [.select] else []) }

/-- A logical write begun while IDLE hands over its frame and closes (R159), whatever the transport answers. -/
theorem logicalWrite_of_idle (dc : Bool) (p : List Byte) {s : State} (h : s.phase = .idle) :
    logicalWrite dc p s = (handOver (frame s.params.filler dc p) (begun dc s)).andThen closeWrite := by
  rw [logicalWrite, beginPort_of_idle dc h, Ran.done_andThen]
  exact bytesPort_endPort p (s := begun dc s) rfl rfl rfl

/-- Groups all answered ok: each is in the trace once, in order, after the one Select of the write (R67 (c)). -/
theorem handOver_of_oks (g : Octets) (gs : List Octets) {s : State} {t : Transport}
    (h : s.transport.afterOks (gs.length + 1) = some t) :
    handOver (g :: gs) s =
      .done { s with
        sel := true, buf := Octets.zero, cnt := 0, transport := t
        trace := s.trace ++ (if s.sel then [] else [.select]) ++ (g :: gs).map .tx } := by
  induction gs generalizing s g with
  | nil =>
    obtain ⟨v, hv, hv'⟩ := (Transport.afterOks_succ_eq_some_iff 0 _ _).1 h
    obtain rfl : v = t := by simpa [Transport.afterOks] using hv'
    rw [handOver, transmitGroup_of_ok (by simpa using hv), Ran.done_andThen]
    cases hs : s.sel <;> simp [handOver, State.assertSelect, State.emit, hs]
  | cons g' gs ih =>
    obtain ⟨v, hv, hv'⟩ := (Transport.afterOks_succ_eq_some_iff _ _ _).1 h
    rw [handOver, transmitGroup_of_ok (by simpa using hv), Ran.done_andThen, ih g' (by simpa using hv')]
    cases hs : s.sel <;> simp [State.assertSelect, State.emit, hs]

/-- Group n fails after n ok answers: the groups up to it are in the trace, the later ones never (R219). -/
theorem handOver_of_fail (gs : List Octets) (n : Nat) (hn : n < gs.length) {s : State} {u t : Transport}
    {err : TransportError} (h : s.transport.afterOks n = some u) (hf : u.next = some (.fail err, t)) :
    handOver gs s =
      .raised (.eTransport err) { s with
        sel := false, buf := Octets.zero, cnt := 0, phase := .idle, transport := t, freeCount := s.freeCount + 1
        trace := s.trace ++ (if s.sel then [] else [.select]) ++ (gs.take (n + 1)).map .tx ++ failTail s } := by
  induction n generalizing s gs with
  | zero =>
    match gs, hn with
    | g :: gs, _ =>
      obtain rfl : s.transport = u := by simpa [Transport.afterOks] using h
      rw [handOver, transmitGroup_of_fail (by simpa using hf), Ran.raised_andThen]
      cases hs : s.sel <;> simp [State.assertSelect, State.emit, failedState, failTail, hs]
  | succ n ih =>
    match gs, hn with
    | g :: gs, hn =>
      obtain ⟨v, hv, hv'⟩ := (Transport.afterOks_succ_eq_some_iff _ _ _).1 h
      rw [handOver, transmitGroup_of_ok (by simpa using hv), Ran.done_andThen, ih gs (by simpa using hn) (by simpa using hv')]
      cases hs : s.sel <;> simp [State.assertSelect, State.emit, failTail, hs]

/-- Group n is never answered (R68). -/
theorem handOver_of_none (gs : List Octets) (n : Nat) (hn : n < gs.length) {s : State} {u : Transport}
    (h : s.transport.afterOks n = some u) (hf : u.next = none) : handOver gs s = .unanswered := by
  induction n generalizing s gs with
  | zero =>
    match gs, hn with
    | g :: gs, _ =>
      obtain rfl : s.transport = u := by simpa [Transport.afterOks] using h
      rw [handOver, transmitGroup_of_none (by simpa using hf), Ran.unanswered_andThen]
  | succ n ih =>
    match gs, hn with
    | g :: gs, hn =>
      obtain ⟨v, hv, hv'⟩ := (Transport.afterOks_succ_eq_some_iff _ _ _).1 h
      rw [handOver, transmitGroup_of_ok (by simpa using hv), Ran.done_andThen, ih gs (by simpa using hn) (by simpa using hv')]

@[simp] theorem frame_length (filler : Byte) (dc : Bool) (p : List Byte) : (frame filler dc p).length = groupCount p.length := by
  simp [frame]

end Sys2Proof.Machine
end

