-- ==== Sys2Proof/Laws/Writes.lean ====
section
/-! SUPPORT. A whole logical write begun while IDLE: every `Tx` answered ok, or one failed; when it can go unanswered. -/

namespace Sys2Proof.Machine

theorem frame_of_nonempty (filler : Byte) (dc : Bool) {p : List Byte} (hp : p ≠ []) :
    ∃ g gs, frame filler dc p = g :: gs ∧ gs.length + 1 = groupCount p.length := by
  have hl := frame_length filler dc p
  have h0 : 0 < p.length := List.length_pos_iff.2 hp
  match hf : frame filler dc p with
  | [] => rw [hf] at hl; simp [groupCount] at hl; omega
  | g :: gs => exact ⟨g, gs, rfl, by rw [← hl, hf]; rfl⟩

/-- Every `Tx` answered ok (R159). -/
theorem logicalWrite_of_oks (dc : Bool) (p : List Byte) {s : State} {t : Transport} (h : s.phase = .idle)
    (ht : s.transport.afterOks (groupCount p.length) = some t) :
    logicalWrite dc p s = .done { s with
      dc := dc, buf := Octets.zero, cnt := 0, phase := .idle, sel := false, transport := t
      trace := s.trace ++ writeTrace s.params.emptyWriteSelects (frame s.params.filler dc p) } := by
  rw [logicalWrite_of_idle dc p h]
  by_cases hp : p = []
  · subst hp
    obtain rfl : s.transport = t := by simpa [groupCount, Transport.afterOks] using ht
    cases he : s.params.emptyWriteSelects <;>
      simp [handOver, closeWrite, begun, State.releaseSelect, he, writeTrace, State.emit]
  · obtain ⟨g, gs, hf, hl⟩ := frame_of_nonempty s.params.filler dc hp
    rw [hf, handOver_of_oks (t := t) g gs (by rw [hl]; exact ht)]
    cases he : s.params.emptyWriteSelects <;>
      simp [closeWrite, begun, State.releaseSelect, he, writeTrace, State.emit]

/-- The `Tx` of group n fails (R219). -/
theorem logicalWrite_of_fail (dc : Bool) (p : List Byte) (n : Nat) {s : State} {u t : Transport} {err : TransportError}
    (h : s.phase = .idle) (hn : n < groupCount p.length) (hu : s.transport.afterOks n = some u)
    (hf : u.next = some (.fail err, t)) :
    logicalWrite dc p s = .raised (.eTransport err) { s with
      dc := dc, buf := Octets.zero, cnt := 0, phase := .idle, sel := false, transport := t, freeCount := s.freeCount + 1
      trace := s.trace ++ ([.select] ++ ((frame s.params.filler dc p).take (n + 1)).map .tx ++ failTail s) } := by
  rw [logicalWrite_of_idle dc p h, handOver_of_fail _ n (by simpa using hn) (s := begun dc s) hu hf]
  cases he : s.params.emptyWriteSelects <;> simp [begun, he, failTail]

/-! ### Several logical writes, their groups counted through (R183 (3), (4)) -/

/-- The groups of each write. -/
def writesGroups (filler : Byte) (ws : List (Bool × List Byte)) : List (List Octets) :=
  ws.map fun w => frame filler w.1 w.2

/-- The selector of the write that holds group `n`. -/
def selectorOf : List (Bool × List Byte) → Nat → Bool
  | [], _ => false
  | (dc, p) :: rest, n => if n < groupCount p.length then dc else selectorOf rest (n - groupCount p.length)

/-- The number of groups of the writes together. -/
def groupTotal (ws : List (Bool × List Byte)) : Nat := (ws.map fun w => groupCount w.2.length).sum

/-- The `Tx` of group n fails, whichever write it belongs to: the writes before it are complete, those after it are
not performed (R183 (4), R219). -/
theorem logicalWrites_of_fail (ws : List (Bool × List Byte)) (n : Nat) {s : State} {u t : Transport} {err : TransportError}
    (h : s.phase = .idle) (hn : n < groupTotal ws) (hu : s.transport.afterOks n = some u)
    (hf : u.next = some (.fail err, t)) :
    logicalWrites ws s = .raised (.eTransport err) { s with
      dc := selectorOf ws n, buf := Octets.zero, cnt := 0, phase := .idle, sel := false, transport := t
      freeCount := s.freeCount + 1
      trace := s.trace ++ (eventsUpTo s.params.emptyWriteSelects (writesGroups s.params.filler ws) n ++ failTail s) } := by
  induction ws generalizing s n with
  | nil => simp [groupTotal] at hn
  | cons w ws ih =>
    obtain ⟨dc, p⟩ := w
    by_cases hlt : n < groupCount p.length
    · rw [logicalWrites, logicalWrite_of_fail dc p n h hlt hu hf, Ran.raised_andThen]
      simp [selectorOf, hlt, writesGroups, eventsUpTo]
    · have hle : groupCount p.length + (n - groupCount p.length) = n := by omega
      rw [← hle, Transport.afterOks_add] at hu
      obtain ⟨v, hv, hv'⟩ := Option.bind_eq_some_iff.1 hu
      rw [logicalWrites, logicalWrite_of_oks dc p h hv, Ran.done_andThen]
      have hn' : n - groupCount p.length < groupTotal ws := by
        simp only [groupTotal, List.map_cons, List.sum_cons] at hn ⊢; omega
      rw [ih (n - groupCount p.length) rfl hn' hv']
      simp [selectorOf, hlt, writesGroups, eventsUpTo, failTail]

/-- The groups are all answered ok, or one is the first to fail, or one is never answered (R212). -/
theorem handOver_cases (gs : List Octets) (s : State) :
    handOver gs s = .unanswered ∨ (∃ t, s.transport.afterOks gs.length = some t) ∨
      ∃ n u err t, n < gs.length ∧ s.transport.afterOks n = some u ∧ u.next = some (.fail err, t) := by
  induction gs generalizing s with
  | nil => exact .inr (.inl ⟨_, rfl⟩)
  | cons g gs ih =>
    rcases ht : s.transport.next with _ | ⟨_ | err, t⟩
    · exact .inl (by rw [handOver, transmitGroup_of_none (by simpa using ht)]; rfl)
    · rw [handOver, transmitGroup_of_ok (by simpa using ht), Ran.done_andThen]
      rcases ih { s.assertSelect with buf := Octets.zero, cnt := 0, transport := t
                                      trace := s.assertSelect.trace ++ [.tx g] } with h | ⟨v, hv⟩ | ⟨n, u, err, v, hn, hu, hv⟩
      · exact .inl (by simpa using h)
      · exact .inr (.inl ⟨v, by simp only [List.length_cons, Transport.afterOks, ht]; exact hv⟩)
      · exact .inr (.inr ⟨n + 1, u, err, v, by simpa using hn, by simp only [Transport.afterOks, ht]; exact hu, hv⟩)
    · exact .inr (.inr ⟨0, _, err, t, by simp, rfl, ht⟩)

/-! ### A transport that always answers (R212) -/

/-- A part of an operation that ends, and leaves a transport that still always answers. -/
def Ran.Answered (r : Ran) : Prop :=
  r ≠ .unanswered ∧ r.Sat (fun t => t.transport.afterwards ≠ .never) fun _ _ => True

theorem Ran.Answered.andThen {r : Ran} {k : State → Ran} (h : r.Answered)
    (hk : ∀ s, s.transport.afterwards ≠ .never → (k s).Answered) : (r.andThen k).Answered := by
  cases r with
  | done s => exact hk s h.2
  | raised e s => exact ⟨by simp, trivial⟩
  | unanswered => exact absurd rfl h.1

theorem transmitGroup_answered {s : State} (h : s.transport.afterwards ≠ .never) : (transmitGroup s).Answered := by
  rcases ht : s.transport.next with _ | ⟨_ | err, t⟩
  · exact absurd ((Transport.next_eq_none_iff _).1 ht).2 h
  · rw [transmitGroup_of_ok ht]
    exact ⟨by simp, by simpa [Ran.Sat, Transport.next_afterwards ht] using h⟩
  · rw [transmitGroup_of_fail ht]
    exact ⟨by simp, trivial⟩

theorem packByte_answered (d : Byte) {s : State} (h : s.transport.afterwards ≠ .never) : (packByte d s).Answered := by
  unfold packByte
  split
  · exact ⟨by simp, h⟩
  · exact transmitGroup_answered h

theorem beginPort_answered (dc : Bool) {s : State} (h : s.transport.afterwards ≠ .never) : (beginPort dc s).Answered := by
  unfold beginPort
  split
  · refine ⟨by simp, ?_⟩
    cases he : s.params.emptyWriteSelects <;> simpa [Ran.Sat, he] using h
  · exact ⟨by simp, trivial⟩

theorem bytePort_answered (d : Byte) {s : State} (h : s.transport.afterwards ≠ .never) : (bytePort d s).Answered := by
  unfold bytePort
  split
  · exact packByte_answered d (by simpa using h)
  · exact ⟨by simp, trivial⟩

theorem padGroup_answered (fuel : Nat) {s : State} (h : s.transport.afterwards ≠ .never) : (padGroup fuel s).Answered := by
  induction fuel generalizing s with
  | zero => exact ⟨by simp [padGroup], h⟩
  | succ fuel ih =>
    unfold padGroup
    split
    · exact ⟨by simp, h⟩
    · exact (packByte_answered _ h).andThen fun t ht => ih ht

theorem endPort_answered {s : State} (h : s.transport.afterwards ≠ .never) : (endPort s).Answered := by
  unfold endPort
  split
  · exact (padGroup_answered 8 h).andThen fun t ht => ⟨by simp, by simpa [Ran.Sat] using ht⟩
  · exact ⟨by simp, trivial⟩

theorem bytesPort_answered (p : List Byte) {s : State} (h : s.transport.afterwards ≠ .never) : (bytesPort p s).Answered := by
  induction p generalizing s with
  | nil => exact ⟨by simp [bytesPort], h⟩
  | cons d p ih => exact (bytePort_answered d h).andThen fun t ht => ih ht

theorem logicalWrite_answered (dc : Bool) (p : List Byte) {s : State} (h : s.transport.afterwards ≠ .never) :
    (logicalWrite dc p s).Answered :=
  ((beginPort_answered dc h).andThen fun _ ht => bytesPort_answered p ht).andThen fun _ ht => endPort_answered ht

/-- The writes of a pseudo-operation end when the transport always answers (R68). -/
theorem logicalWrites_answered (ws : List (Bool × List Byte)) {s : State} (h : s.transport.afterwards ≠ .never) :
    (logicalWrites ws s).Answered := by
  induction ws generalizing s with
  | nil => exact ⟨by simp [logicalWrites], h⟩
  | cons w ws ih => exact (logicalWrite_answered w.1 w.2 h).andThen fun t ht => ih ht

end Sys2Proof.Machine
end

