-- ==== Sys2Proof/Laws/Sessions.lean ====
section
/-! SUPPORT. The common shape of the seven pseudo-operations and everything one of them can do (R183). -/

namespace Sys2Proof.Machine

/-- A pseudo-operation as `sessionOperation` around its logical writes: what goes before them (`pre`) and what
follows them (`update`). -/
structure SessionShape (i : Instr) where
  op        : SessionOp
  writes    : Catalog → List (Bool × List Byte)
  pre       : State → State
  update    : State → State
  exec_eq   : ∀ s, exec i s =
    (sessionOperation op (fun t => logicalWrites (writes s.params.cat) (pre t)) update s).finish
  nonempty  : ∀ cat, writes cat ≠ []
  pre_eq    : ∀ s, pre s = { s with session := (pre s).session, trace := (pre s).trace }
  pre_trace : ∀ s, ∃ es, (pre s).trace = s.trace ++ es
  update_eq : ∀ s, update s = { s with session := (update s).session, cfg := (update s).cfg }

/-- The shape of each of the seven (R184 to R197). -/
def sessionShape : (i : Instr) → isSessionOp i = true → SessionShape i
  | .sessionReset, _ =>
    { op := .opReset, writes := resetWrites, pre := pulseResetLine, update := fun t => { t with session := .reset }
      exec_eq := fun _ => rfl
      nonempty := by simp [resetWrites]
      pre_eq := by intro s; cases h : s.params.hasResetLine <;> simp [pulseResetLine, h, State.emit]
      pre_trace := by
        intro s
        cases h : s.params.hasResetLine
        · exact ⟨[], by simp [pulseResetLine, h]⟩
        · exact ⟨[.resetLine .low, .wait 5, .resetLine .high, .wait 5], by simp [pulseResetLine, h]⟩
      update_eq := fun _ => rfl }
  | .sessionInitialize rotation inverse contrast ratio, _ =>
    { op := .opInitialize, writes := fun cat => initializeWrites cat rotation inverse contrast ratio
      pre := fun t => { t with session := .initializing }
      update := fun t => { t with session := .operating,
                                  cfg := { rotation := rotationField rotation, inverse := inverse,
                                           contrast := contrastField contrast, ratio := ratioField ratio } }
      exec_eq := fun _ => rfl, nonempty := by simp [initializeWrites], pre_eq := fun _ => rfl
      pre_trace := fun _ => ⟨[], by simp⟩, update_eq := fun _ => rfl }
  | .setContrast level, _ =>
    { op := .opSetContrast, writes := fun cat => contrastWrites cat level, pre := fun t => t
      update := fun t => { t with cfg := { t.cfg with contrast := contrastField level } }
      exec_eq := fun _ => rfl, nonempty := by simp [contrastWrites], pre_eq := fun _ => rfl
      pre_trace := fun _ => ⟨[], by simp⟩, update_eq := fun _ => rfl }
  | .setInversion flag, _ =>
    { op := .opSetInversion, writes := fun cat => inversionWrites cat flag, pre := fun t => t
      update := fun t => { t with cfg := { t.cfg with inverse := flag } }
      exec_eq := fun _ => rfl, nonempty := by simp [inversionWrites], pre_eq := fun _ => rfl
      pre_trace := fun _ => ⟨[], by simp⟩, update_eq := fun _ => rfl }
  | .setRotation rotation, _ =>
    { op := .opSetRotation, writes := fun cat => rotationWrites cat rotation, pre := fun t => t
      update := fun t => { t with cfg := { t.cfg with rotation := rotationField rotation } }
      exec_eq := fun _ => rfl, nonempty := by simp [rotationWrites], pre_eq := fun _ => rfl
      pre_trace := fun _ => ⟨[], by simp⟩, update_eq := fun _ => rfl }
  | .sleep enable, _ =>
    { op := .opSleep enable, writes := fun cat => sleepWrites cat enable, pre := fun t => t
      update := fun t => { t with session := if enable then .sleeping else .operating }
      exec_eq := fun _ => rfl, nonempty := by cases enable <;> simp [sleepWrites], pre_eq := fun _ => rfl
      pre_trace := fun _ => ⟨[], by simp⟩, update_eq := fun _ => rfl }
  | .refresh framebuffer, _ =>
    { op := .opRefresh, writes := fun cat => refreshWrites cat framebuffer, pre := fun t => t, update := fun t => t
      exec_eq := fun _ => rfl, nonempty := by simp [refreshWrites], pre_eq := fun _ => rfl
      pre_trace := fun _ => ⟨[], by simp⟩, update_eq := fun _ => rfl }

/-- Everything a pseudo-operation can do (R183, R213, R218, R221, R68). -/
inductive SessionOutcome (i : Instr) (h : isSessionOp i = true) (s : State) : Prop where
  | invalid (hv : validIn (sessionShape i h).op s.session = false)
      (he : exec i s = .next (s.reply (.fault (.eInvalidState (sessionShape i h).op s.session))))
  | open_write (hv : validIn (sessionShape i h).op s.session = true) (hp : s.phase = .active)
      (he : exec i s = .next
        (State.reply { (sessionShape i h).pre s with session := s.session } (.fault (.eProtocol .beginWhileActive))))
  | completed (hv : validIn (sessionShape i h).op s.session = true) (hp : s.phase = .idle) (t : State)
      (hw : logicalWrites ((sessionShape i h).writes s.params.cat) ((sessionShape i h).pre s) = .done t)
      (hf : PortFrame ((sessionShape i h).pre s) t) (ht : t.phase = .idle)
      (he : exec i s = .next (((sessionShape i h).update t).reply .done))
  | failed (hv : validIn (sessionShape i h).op s.session = true) (hp : s.phase = .idle) (err : TransportError) (t : State)
      (hw : logicalWrites ((sessionShape i h).writes s.params.cat) ((sessionShape i h).pre s) = .raised (.eTransport err) t)
      (hf : PortFrame ((sessionShape i h).pre s) t)
      (ht : t.phase = .idle ∧ t.cnt = 0 ∧ t.buf = Octets.zero ∧ t.sel = false)
      (he : exec i s = .next (State.reply { t with session := .unconfigured } (.fault (.eTransport err))))
  | stuck (hv : validIn (sessionShape i h).op s.session = true) (hp : s.phase = .idle)
      (hw : logicalWrites ((sessionShape i h).writes s.params.cat) ((sessionShape i h).pre s) = .unanswered)
      (he : exec i s = .fault .transportUnanswered)

theorem sessionOutcome (i : Instr) (h : isSessionOp i = true) (s : State) : SessionOutcome i h s := by
  cases hv : validIn (sessionShape i h).op s.session with
  | false =>
    refine .invalid hv ?_
    rw [(sessionShape i h).exec_eq, sessionOperation, hv]
    rfl
  | true =>
    have hpre : ((sessionShape i h).pre s).phase = s.phase := by rw [(sessionShape i h).pre_eq]
    have hph : s.phase = .active ∨ s.phase = .idle := by cases s.phase <;> simp
    rcases hph with hph | hph
    · refine .open_write hv hph ?_
      rw [(sessionShape i h).exec_eq, sessionOperation, hv, if_pos rfl]
      match hw : (sessionShape i h).writes s.params.cat with
      | [] => exact absurd hw ((sessionShape i h).nonempty _)
      | w :: ws =>
        rw [logicalWrites_of_active w ws (hpre.trans hph)]
        rfl
    · have hf := logicalWrites_framed ((sessionShape i h).writes s.params.cat) (hpre.trans hph)
      rcases hr : logicalWrites ((sessionShape i h).writes s.params.cat) ((sessionShape i h).pre s) with t | ⟨e, t⟩ | _
      · rw [hr] at hf
        refine .completed hv hph t hr hf.1 hf.2 ?_
        rw [(sessionShape i h).exec_eq, sessionOperation, hv, if_pos rfl, hr]
        rfl
      · rw [hr] at hf
        obtain ⟨err, rfl, ht⟩ := hf.1.2
        refine .failed hv hph err t hr hf.1.1 ht ?_
        rw [(sessionShape i h).exec_eq, sessionOperation, hv, if_pos rfl, hr]
        rfl
      · refine .stuck hv hph hr ?_
        rw [(sessionShape i h).exec_eq, sessionOperation, hv, if_pos rfl, hr]
        rfl

end Sys2Proof.Machine
end

