-- ==== Sys2Proof/Laws/Exec.lean ====
section
/-! SUPPORT. Everything an operation of the block itself can do, and what a step does around exec. -/

namespace Sys2Proof.Machine

/-- An operation of groups E and F, or WRITE: a byte returned and nothing else (R110); a misuse refused without
effect (R214); or the framer's frame kept, the only fault a failed transmit (R156 to R159). -/
theorem exec_block (i : Instr) (h : isSessionOp i = false) (s : State) :
    (∃ b, exec i s = .next (s.reply (.byte b))) ∨
    ∃ r : Ran, exec i s = r.finish ∧ ((∃ cause, r = .raised (.eProtocol cause) s) ∨ r.Framed s) := by
  have hph : s.phase = .active ∨ s.phase = .idle := by cases s.phase <;> simp
  cases i with
  | sessionReset | sessionInitialize | setContrast | setInversion | setRotation | sleep | refresh => simp [isSessionOp] at h
  | beginWrite dc =>
    refine .inr ⟨_, rfl, ?_⟩
    rcases hph with hp | hp
    · exact .inl ⟨_, beginPort_of_active dc hp⟩
    · rw [beginPort_of_idle dc hp]
      exact .inr ⟨rfl, rfl, rfl, rfl, rfl, rfl, _, rfl, by cases s.params.emptyWriteSelects <;> simp⟩
  | byte d =>
    refine .inr ⟨_, rfl, ?_⟩
    rcases hph with hp | hp
    · exact .inr (bytePort_framed d hp)
    · exact .inl ⟨_, bytePort_of_idle d hp⟩
  | endWrite =>
    refine .inr ⟨_, rfl, ?_⟩
    rcases hph with hp | hp
    · exact .inr (endPort_framed hp).1
    · exact .inl ⟨_, endPort_of_idle hp⟩
  | write dc p =>
    refine .inr ⟨_, rfl, ?_⟩
    rcases hph with hp | hp
    · exact .inl ⟨.beginWhileActive, by simp [logicalWrite, beginPort_of_active dc hp]⟩
    · exact .inr (logicalWrite_framed dc p hp).1
  | _ => exact .inl ⟨_, rfl⟩

theorem step_of_run {s t : State} {i : Instr} (h : fetch s = .run i t) : step s = exec i t := by simp [step, h]

theorem step_of_ended {s t : State} (h : fetch s = .ended t) : step s = .next t := by simp [step, h]

/-- What the host presents next, case by case (R25, R96, R217, R240, R242). -/
theorem fetch_cases (s : State) :
    (s.presented = [] ∧ fetch s = .ended s) ∨
    ∃ rest, (s.presented = .blockReset :: rest ∧ fetch s = .ended (blockReset { s with presented := rest })) ∨
      (s.presented = .constructSession :: rest ∧ fetch s = .ended (constructSession { s with presented := rest })) ∨
      ∃ w, s.presented = .port w :: rest ∧
        ((∃ i, decode w = .operation i ∧ fetch s = .run i { s with presented := rest }) ∨
         (decode w = .nothing ∧ fetch s = .ended { s with presented := rest }) ∨
         ∃ why, decode w = .unassigned why ∧
           fetch s = .ended (State.reply { s with presented := rest } (.fault (.eProtocol (.unassigned why))))) := by
  unfold fetch
  split
  · exact .inl ⟨‹_›, rfl⟩
  · exact .inr ⟨_, .inl ⟨‹_›, rfl⟩⟩
  · exact .inr ⟨_, .inr (.inl ⟨‹_›, rfl⟩)⟩
  · refine .inr ⟨_, .inr (.inr ⟨_, ‹_›, ?_⟩)⟩
    split
    · exact .inl ⟨_, ‹_›, rfl⟩
    · exact .inr (.inl ⟨‹_›, rfl⟩)
    · exact .inr (.inr ⟨_, ‹_›, rfl⟩)

end Sys2Proof.Machine
end

