-- ==== Sys2Proof/Laws/PerInstr.lean ====
section
/-! SUPPORT. Per instruction: which port presents it (R88, R89, R94, R99), and that a group E operation is one with a command byte. -/

namespace Sys2Proof.Laws.PortKind

open Sys2Proof Sys2Proof.Machine

/-- An encoder operation has an index 0 to 19 and a command byte; a framer operation sets exactly one strobe;
an operation of group P is presented by name. The last two have no command byte. -/
def Statement (i : Instr) : Prop :=
  match encode i with
  | .encoder esel _ => esel.toNat < 20 ∧ isEncoderOp i = true ∧ isSessionOp i = false
  | .framer fp =>
    (fp.extractLsb' 9 3 = 0b100 ∨ fp.extractLsb' 9 3 = 0b010 ∨ fp.extractLsb' 9 3 = 0b001) ∧
      isEncoderOp i = false ∧ isSessionOp i = false
  | .operation j => j = i ∧ isEncoderOp i = false

theorem dispon : Statement .dispon := by simp [Statement, encode, isEncoderOp, commandByte, isSessionOp]
theorem dispoff : Statement .dispoff := by simp [Statement, encode, isEncoderOp, commandByte, isSessionOp]
theorem vidnorm : Statement .vidnorm := by simp [Statement, encode, isEncoderOp, commandByte, isSessionOp]
theorem vidinv : Statement .vidinv := by simp [Statement, encode, isEncoderOp, commandByte, isSessionOp]
theorem allnorm : Statement .allnorm := by simp [Statement, encode, isEncoderOp, commandByte, isSessionOp]
theorem allon : Statement .allon := by simp [Statement, encode, isEncoderOp, commandByte, isSessionOp]
theorem segnorm : Statement .segnorm := by simp [Statement, encode, isEncoderOp, commandByte, isSessionOp]
theorem segrev : Statement .segrev := by simp [Statement, encode, isEncoderOp, commandByte, isSessionOp]
theorem comnorm : Statement .comnorm := by simp [Statement, encode, isEncoderOp, commandByte, isSessionOp]
theorem comrev : Statement .comrev := by simp [Statement, encode, isEncoderOp, commandByte, isSessionOp]
theorem pwron : Statement .pwron := by simp [Statement, encode, isEncoderOp, commandByte, isSessionOp]
theorem pwroff : Statement .pwroff := by simp [Statement, encode, isEncoderOp, commandByte, isSessionOp]
theorem swreset : Statement .swreset := by simp [Statement, encode, isEncoderOp, commandByte, isSessionOp]
theorem nop : Statement .nop := by simp [Statement, encode, isEncoderOp, commandByte, isSessionOp]
theorem ratio (r : Nat) : Statement (.ratio r) := by simp [Statement, encode, isEncoderOp, commandByte, isSessionOp]
theorem ev (c : Nat) : Statement (.ev c) := by simp [Statement, encode, isEncoderOp, commandByte, isSessionOp]
theorem page (p : Nat) : Statement (.page p) := by simp [Statement, encode, isEncoderOp, commandByte, isSessionOp]
theorem colmsb (c : Nat) : Statement (.colmsb c) := by simp [Statement, encode, isEncoderOp, commandByte, isSessionOp]
theorem collsb (c : Nat) : Statement (.collsb c) := by simp [Statement, encode, isEncoderOp, commandByte, isSessionOp]
theorem startline (l : Nat) : Statement (.startline l) := by simp [Statement, encode, isEncoderOp, commandByte, isSessionOp]
theorem beginWrite (dc : Bool) : Statement (.beginWrite dc) := by
  cases dc <;> simp [Statement, encode, isEncoderOp, commandByte, isSessionOp, framerWord]
theorem byte (d : Byte) : Statement (.byte d) := by
  refine ⟨.inr (.inl ?_), rfl, rfl⟩
  decide +revert
theorem endWrite : Statement .endWrite := by simp [Statement, encode, isEncoderOp, commandByte, isSessionOp, framerWord]
theorem write (dc : Bool) (p : List Byte) : Statement (.write dc p) := ⟨rfl, rfl⟩
theorem sessionReset : Statement .sessionReset := ⟨rfl, rfl⟩
theorem sessionInitialize (rotation : Nat) (inverse : Bool) (contrast ratio : Nat) :
    Statement (.sessionInitialize rotation inverse contrast ratio) := ⟨rfl, rfl⟩
theorem setContrast (level : Nat) : Statement (.setContrast level) := ⟨rfl, rfl⟩
theorem setInversion (flag : Bool) : Statement (.setInversion flag) := ⟨rfl, rfl⟩
theorem setRotation (rotation : Nat) : Statement (.setRotation rotation) := ⟨rfl, rfl⟩
theorem sleep (enable : Bool) : Statement (.sleep enable) := ⟨rfl, rfl⟩
theorem refresh (framebuffer : List Byte) : Statement (.refresh framebuffer) := ⟨rfl, rfl⟩

end Sys2Proof.Laws.PortKind
end

