-- ==== Sys2Proof/Tests/Slice0.lean ====
section
/-! SUPPORT. The model's own tests: words written out from 30_encoding.md, ill-formed terms, the vectors of 95_test_vectors.md, one step each, and a witness for each statement that has hypotheses. -/

namespace Sys2Proof.Tests

open Sys2Proof Sys2Proof.Machine Sys2Proof.Claims

/-! ### Helpers -/

/-- A transport that answers the script and then always ok. -/
def answering (script : List Answer) : Transport := { script := script, afterwards := .always .ok, answered := 0 }

/-- A transport that never answers. -/
def mute : Transport := { script := [], afterwards := .never, answered := 0 }

/-- The reset state in a session state and over a transport. -/
def inSession (x : Session) (t : Transport) : State := { State.reset with session := x, transport := t }

/-- A write open since BEGIN, its slots 0 to `cnt` - 1 filled with zero bytes under selector 0. -/
def inWrite (cnt : Fin 8) (sel : Bool) (t : Transport) : State :=
  { State.reset with phase := .active, cnt := cnt, sel := sel, transport := t }

/-- `s` with the given things presented next. -/
def presenting (actions : List HostAction) (s : State) : State := { s with presented := actions }

def nextOf : Host.Outcome State Fault Refusal → Option State
  | .next s => some s
  | .fault _ => none
  | .refused _ => none

def faultOf : Host.Outcome State Fault Refusal → Option Fault
  | .next _ => none
  | .fault f => some f
  | .refused _ => none

/-- One reading of the state after an operation. -/
def after {α : Type} (i : Instr) (s : State) (read : State → α) : Option α := (nextOf (exec i s)).map read

/-! ### Well-formedness: one ill-formed term for each check -/

theorem test_wf_accepts_contract :
    Instr.wf defaultParams (.ratio 7) = true ∧ Instr.wf defaultParams (.ev 31) = true ∧
    Instr.wf defaultParams (.page 15) = true ∧ Instr.wf defaultParams (.colmsb 127) = true ∧
    Instr.wf defaultParams (.collsb 127) = true ∧ Instr.wf defaultParams (.startline 63) = true ∧
    Instr.wf defaultParams (.write true [0, 0, 0, 0, 0, 0, 0, 0]) = true ∧ Instr.wf defaultParams (.write false [0]) = true ∧
    Instr.wf defaultParams (.sessionInitialize 180 true 31 7) = true ∧ Instr.wf defaultParams (.setContrast 31) = true ∧
    Instr.wf defaultParams (.setRotation 0) = true ∧ Instr.wf defaultParams (.refresh (List.replicate 16 0)) = true := by
  decide

theorem test_wf_refuses_parameters_out_of_range :
    Instr.wf defaultParams (.ratio 8) = false ∧ Instr.wf defaultParams (.ev 32) = false ∧
    Instr.wf defaultParams (.page 16) = false ∧ Instr.wf defaultParams (.colmsb 128) = false ∧
    Instr.wf defaultParams (.collsb 128) = false ∧ Instr.wf defaultParams (.startline 64) = false ∧
    Instr.wf defaultParams (.setContrast 32) = false ∧ Instr.wf defaultParams (.setRotation 90) = false ∧
    Instr.wf defaultParams (.sessionInitialize 90 false 0 0) = false ∧
    Instr.wf defaultParams (.sessionInitialize 0 false 32 0) = false ∧
    Instr.wf defaultParams (.sessionInitialize 0 false 0 8) = false := by
  decide

theorem test_wf_refuses_short_data :
    Instr.wf defaultParams (.write true [0]) = false ∧ Instr.wf defaultParams (.refresh [0]) = false ∧
    Instr.wf { defaultParams with width := 9 } (.refresh (List.replicate 9 0)) = false := by
  decide

theorem test_params_wf :
    defaultParams.wf = true ∧
    Params.wf { defaultParams with cat := { defaultCatalog with baseEv := 0x90 } } = false ∧
    Params.wf { defaultParams with width := 3, height := 3 } = false ∧
    Params.wf { defaultParams with width := 9 } = false ∧
    Params.wf { defaultParams with width := 0 } = false ∧ Params.wf { defaultParams with height := 0 } = false := by
  decide

/-! ### Decoding: port words written out from R88 and R89 -/

theorem test_decode_fixed_opcodes :
    decode (.encoder 0b00000 0) = .operation .dispon ∧ decode (.encoder 0b00001 0) = .operation .dispoff ∧
    decode (.encoder 0b00010 0) = .operation .vidnorm ∧ decode (.encoder 0b00011 0) = .operation .vidinv ∧
    decode (.encoder 0b00100 0) = .operation .allnorm ∧ decode (.encoder 0b00101 0) = .operation .allon ∧
    decode (.encoder 0b00110 0) = .operation .segnorm ∧ decode (.encoder 0b00111 0) = .operation .segrev ∧
    decode (.encoder 0b01000 0) = .operation .comnorm ∧ decode (.encoder 0b01001 0) = .operation .comrev ∧
    decode (.encoder 0b01010 0) = .operation .pwron ∧ decode (.encoder 0b01011 0) = .operation .pwroff ∧
    decode (.encoder 0b01100 0) = .operation .swreset ∧ decode (.encoder 0b01101 0) = .operation .nop := by
  decide

theorem test_decode_field_commands :
    decode (.encoder 0b01110 0x0F) = .operation (.ratio 15) ∧ decode (.encoder 0b01111 0x110) = .operation (.ev 272) ∧
    decode (.encoder 0b10000 17) = .operation (.page 17) ∧ decode (.encoder 0b10001 200) = .operation (.colmsb 200) ∧
    decode (.encoder 0b10010 95) = .operation (.collsb 95) ∧ decode (.encoder 0b10011 64) = .operation (.startline 64) := by
  decide

theorem test_decode_framer_words :
    decode (.framer 0b100100000000) = .operation (.beginWrite true) ∧
    decode (.framer 0b100011111111) = .operation (.beginWrite false) ∧
    decode (.framer 0b010010101110) = .operation (.byte 0xAE) ∧
    decode (.framer 0b010110000001) = .operation (.byte 0x81) ∧
    decode (.framer 0b001111111111) = .operation .endWrite ∧
    decode (.framer 0b000111111111) = .nothing := by
  decide

/-- WRITE and the pseudo-operations have no bit pattern: they are presented by name (R94, R99). -/
theorem test_decode_named_operations :
    decode (.operation (.write true [1])) = .operation (.write true [1]) ∧
    decode (.operation .sessionReset) = .operation .sessionReset ∧
    decode (.operation (.sessionInitialize 180 true 1 2)) = .operation (.sessionInitialize 180 true 1 2) ∧
    decode (.operation (.setContrast 5)) = .operation (.setContrast 5) ∧
    decode (.operation (.setInversion true)) = .operation (.setInversion true) ∧
    decode (.operation (.setRotation 180)) = .operation (.setRotation 180) ∧
    decode (.operation (.sleep true)) = .operation (.sleep true) ∧
    decode (.operation (.refresh [1])) = .operation (.refresh [1]) := by
  decide

theorem test_decode_refuses_unassigned :
    decode (.encoder 0b10100 0) = .unassigned (.encoderIndex 20) ∧
    decode (.encoder 0b11111 0) = .unassigned (.encoderIndex 31) ∧
    decode (.framer 0b110000000000) = .unassigned (.framerStrobes 0xC00) ∧
    decode (.framer 0b101000000000) = .unassigned (.framerStrobes 0xA00) ∧
    decode (.framer 0b011000000000) = .unassigned (.framerStrobes 0x600) ∧
    decode (.framer 0b111000000000) = .unassigned (.framerStrobes 0xE00) := by
  decide

/-- The command bytes of R94's table, and R89's words in 16 table bits. -/
theorem test_table_words :
    decodeTableWord 8 0b10101111 = some .dispon ∧ decodeTableWord 8 0b00101000 = some .pwroff ∧
    decodeTableWord 8 0b00100111 = some (.ratio 7) ∧ decodeTableWord 8 0b10011111 = some (.ev 31) ∧
    decodeTableWord 8 0b10111000 = some (.page 8) ∧ decodeTableWord 8 0b00010101 = some (.colmsb 80) ∧
    decodeTableWord 8 0b00001111 = some (.collsb 15) ∧ decodeTableWord 8 0b01111111 = some (.startline 63) ∧
    decodeTableWord 8 0b11111111 = none ∧ decodeTableWord 16 0b100100000000 = some (.beginWrite true) ∧
    decodeTableWord 16 0b010010101110 = some (.byte 0xAE) ∧ decodeTableWord 16 0b001000000000 = some .endWrite ∧
    decodeTableWord 16 0b110000000000 = none := by
  decide

/-! ### The framer's functions (95_test_vectors.md, 2.1 to 2.4) -/

/-- The source's own scenario S6 (V5). -/
theorem test_pack_source_scenario :
    packGroup true #v[0x00, 0x11, 0x22, 0x33, 0x44, 0x55, 0x66, 0x77] =
      #v[0x80, 0x44, 0x64, 0x53, 0x3A, 0x25, 0x56, 0xCD, 0x77] := by
  decide

/-- V9. -/
theorem test_pack_mixed :
    packGroup true #v[0x12, 0x34, 0x56, 0x78, 0x9A, 0xBC, 0xDE, 0xF0] =
      #v[0x89, 0x4D, 0x2A, 0xD7, 0x8C, 0xD6, 0xF3, 0xBD, 0xF0] := by
  decide

/-- V39: nine bytes, two groups, seven fillers. -/
theorem test_frame_pads_last_group :
    frame 0xE3 false [0xA0, 0xA1, 0xA2, 0xA3, 0xA4, 0xA5, 0xA6, 0xA7, 0xA8] =
      [#v[0x50, 0x28, 0x54, 0x4A, 0x35, 0x22, 0x95, 0x4C, 0xA7], #v[0x54, 0x38, 0xDC, 0x6E, 0x37, 0x1B, 0x8D, 0xC6, 0xE3]] := by
  decide

/-- V51. -/
theorem test_unpack_padded_group :
    unpackGroup #v[0x57, 0xB8, 0xDC, 0x6E, 0x37, 0x1B, 0x8D, 0xC6, 0xE3] =
      (Vector.replicate 8 false, #v[0xAF, 0xE3, 0xE3, 0xE3, 0xE3, 0xE3, 0xE3, 0xE3]) := by
  decide

/-! ### The encoder (2.2) -/

/-- V21, V23, V24, V25, V28. -/
theorem test_field_commands_truncate :
    commandByte defaultCatalog (.ratio 0x0F) = some 0x27 ∧ commandByte defaultCatalog (.ev 0x110) = some 0x90 ∧
    commandByte defaultCatalog (.page 17) = some 0xB1 ∧ commandByte defaultCatalog (.startline 127) = some 0x7F ∧
    commandByte defaultCatalog (.colmsb 200) = some 0x14 ∧ commandByte defaultCatalog (.collsb 200) = some 0x08 := by
  decide

/-- V27: 95 and 127. -/
theorem test_column_pair :
    columnPair defaultCatalog 95 = [0x15, 0x0F] ∧ columnPair defaultCatalog 127 = [0x17, 0x0F] := by
  decide

/-- R111 to R124. -/
theorem test_fixed_opcodes :
    [Instr.dispon, .dispoff, .vidnorm, .vidinv, .allnorm, .allon, .segnorm, .segrev, .comnorm, .comrev, .pwron, .pwroff,
      .swreset, .nop].map (fun i => after i State.reset fun t => t.replies.getLast?) =
    [0xAF, 0xAE, 0xA6, 0xA7, 0xA4, 0xA5, 0xA0, 0xA1, 0xC0, 0xC8, 0x2F, 0x28, 0xE2, 0xE3].map
      fun b => some (some (Reply.byte b)) := by
  decide

/-! ### One step -/

/-- The example of R157. -/
theorem test_byte_splits :
    after (.byte 0xAE) (inWrite 0 false (answering [])) (fun t => (t.buf, t.cnt, t.sel, t.trace)) =
      some (#v[0x57, 0, 0, 0, 0, 0, 0, 0, 0], 1, true, [.select]) := by
  decide

/-- The byte that completes a group stands whole in its last octet. -/
theorem test_byte_completes_group :
    after (.byte 0x5A) (inWrite 7 true (answering [])) (fun t => (t.buf, t.cnt, t.trace)) =
      some (Octets.zero, 0, [.tx #v[0, 0, 0, 0, 0, 0, 0, 0, 0x5A]]) := by
  decide

/-- The example of R158, from the state R157's example leaves. -/
theorem test_end_pads :
    after .endWrite { inWrite 2 true (answering []) with buf := #v[0x57, 0x29, 0x40, 0, 0, 0, 0, 0, 0] }
        (fun t => (t.trace, t.phase, t.sel)) =
      some ([.tx #v[0x57, 0x29, 0x5C, 0x6E, 0x37, 0x1B, 0x8D, 0xC6, 0xE3], .deselect], .idle, false) := by
  decide

theorem test_begin_selects_when_told :
    after (.beginWrite true) { State.reset with params := { defaultParams with emptyWriteSelects := true } }
        (fun t => (t.trace, t.sel, t.dc)) = some ([.select], true, true) := by
  decide

/-- V41: the filler of a data write is tagged as data. -/
theorem test_write_pads_data :
    after (.write true [0xDE, 0xAD, 0xBE]) (inSession .unconfigured (answering [])) (fun t => t.trace) =
      some [.select, .tx #v[0xEF, 0x6B, 0x77, 0xDE, 0x3F, 0x1F, 0x8F, 0xC7, 0xE3], .deselect] := by
  decide

/-- R219: the second group of three fails; the third is never produced. -/
theorem test_write_fails_at_second_group :
    after (.write false (List.replicate 17 0xE3)) (inSession .unconfigured (answering [.ok, .fail 7]))
        (fun t => (t.phase, t.cnt, t.sel, t.replies, t.transport.answered)) =
      some (.idle, 0, false, [.fault (.eTransport 7)], 2) := by
  decide

/-- R184's example, with the reset line. -/
theorem test_reset_pulses :
    after .sessionReset (inSession .unconfigured (answering [])) (fun t => (t.trace, t.session)) =
      some ([.resetLine .low, .wait 5, .resetLine .high, .wait 5, .select,
             .tx #v[0x71, 0x38, 0xDC, 0x6E, 0x37, 0x1B, 0x8D, 0xC6, 0xE3], .deselect], .reset) := by
  decide

/-- R186's example (S7). -/
theorem test_initialize :
    after (.sessionInitialize 0 false 0x10 0x04) (inSession .reset (answering [])) (fun t => (t.trace, t.session)) =
      some ([.select, .tx #v[0x12, 0x24, 0x14, 0x82, 0xF5, 0x03, 0x01, 0x4C, 0x40],
             .tx #v[0x57, 0xB8, 0xDC, 0x6E, 0x37, 0x1B, 0x8D, 0xC6, 0xE3], .deselect], .operating) := by
  decide

/-- R188's example: the stored level is the truncated one. -/
theorem test_set_contrast :
    after (.setContrast 0x3F) (inSession .operating (answering [])) (fun t => (t.trace, t.cfg.contrast)) =
      some ([.select, .tx #v[0x4F, 0xB8, 0xDC, 0x6E, 0x37, 0x1B, 0x8D, 0xC6, 0xE3], .deselect], 0x1F) := by
  decide

/-- R189's example. -/
theorem test_set_inversion :
    after (.setInversion true) (inSession .operating (answering [])) (fun t => (t.trace, t.cfg.inverse)) =
      some ([.select, .tx #v[0x53, 0xB8, 0xDC, 0x6E, 0x37, 0x1B, 0x8D, 0xC6, 0xE3], .deselect], true) := by
  decide

/-- R190's example. -/
theorem test_set_rotation :
    after (.setRotation 180) (inSession .operating (answering [])) (fun t => (t.trace, t.cfg.rotation)) =
      some ([.select, .tx #v[0x50, 0xB2, 0x1C, 0x6E, 0x37, 0x1B, 0x8D, 0xC6, 0xE3], .deselect], .deg180) := by
  decide

/-- R192's example. -/
theorem test_sleep_true :
    after (.sleep true) (inSession .operating (answering [])) (fun t => (t.trace, t.session)) =
      some ([.select, .tx #v[0x57, 0x29, 0x5C, 0x6E, 0x37, 0x1B, 0x8D, 0xC6, 0xE3], .deselect], .sleeping) := by
  decide

/-- R193's example. -/
theorem test_sleep_false :
    after (.sleep false) (inSession .sleeping (answering [])) (fun t => (t.trace, t.session)) =
      some ([.select, .tx #v[0x52, 0x38, 0xDC, 0x6E, 0x37, 0x1B, 0x8D, 0xC6, 0xE3], .deselect], .operating) := by
  decide

/-- R197's example. -/
theorem test_refresh :
    after (.refresh [0x01, 0x02, 0x04, 0x08, 0x10, 0x20, 0x40, 0x80, 0xFF, 0x00, 0xFF, 0x00, 0xAA, 0x55, 0xAA, 0x55])
        (inSession .operating (answering [])) (fun t => t.trace) =
      some [.select, .tx #v[0x20, 0x2C, 0x02, 0x00, 0x07, 0x1B, 0x8D, 0xC6, 0xE3], .deselect,
            .select, .tx #v[0x80, 0xC0, 0xA0, 0x90, 0x88, 0x84, 0x82, 0x81, 0x80],
            .tx #v[0xFF, 0xC0, 0x3F, 0xF0, 0x0D, 0x55, 0x57, 0x55, 0x55], .deselect,
            .select, .tx #v[0x57, 0xB8, 0xDC, 0x6E, 0x37, 0x1B, 0x8D, 0xC6, 0xE3], .deselect] := by
  decide

/-- R219 in the data write of a refresh of two data groups: the second of them fails. -/
theorem test_refresh_fails_in_data_write :
    after (.refresh (List.replicate 16 0)) (inSession .operating (answering [.ok, .ok, .fail 7]))
        (fun t => (t.dc, t.session, t.transport.answered)) = some (true, .unconfigured, 3) := by
  decide

theorem test_refresh_refused_asleep :
    after (.refresh []) (inSession .sleeping (answering [])) (fun t => (t.trace, t.replies)) =
      some ([], [.fault (.eInvalidState .opRefresh .sleeping)]) := by
  decide

/-- U11: a `Tx` that is never answered. -/
theorem test_unanswered : faultOf (exec (.write false [0xE2]) (inSession .unconfigured mute)) = some .transportUnanswered := by
  decide

theorem test_step_runs_table_words :
    (nextOf (step (State.reset.withFetchWord 8 0x90))).map (·.replies) = some [.byte 0x90] ∧
    (nextOf (step (State.reset.withFetchWord 16 0x900))).map (fun t => (t.phase, t.dc)) = some (.active, true) ∧
    (nextOf (step (State.reset.withFetchWord 16 0x200))).map (·.replies) = some [.fault (.eProtocol .endWhileIdle)] ∧
    (nextOf (step (State.reset.withFetchWord 16 0xC00))).map (·.replies) =
      some [.fault (.eProtocol (.unassigned (.framerStrobes 0xC00)))] := by
  decide

theorem test_block_reset :
    (nextOf (step (presenting [.blockReset] (inWrite 5 true mute)))).map
        (fun t => (t.phase, t.cnt, t.buf, t.sel, t.trace)) = some (.idle, 0, Octets.zero, false, []) := by
  decide

/-! ### Witnesses: the hypotheses of each statement, clause by clause, met together -/

/-- What the clauses on the transport's answer ask: ok, failed, never (R212). -/
theorem witness_answers :
    (answering []).next = some (.ok, { answering [] with answered := 1 }) ∧
    (answering [.fail 7]).next = some (.fail 7, { answering [] with answered := 1 }) ∧
    mute.next = none ∧
    Transport.afterOks 0 mute = some mute ∧
    Transport.afterOks 1 (answering [.ok, .fail 7]) = some { answering [.fail 7] with answered := 1 } ∧
    Transport.afterOks 3 (answering []) = some { answering [] with answered := 3 } := by
  decide

theorem witness_FieldCommandsInsertTheMaskedParameter : State.reset.params.cat.wf = true := by decide

theorem witness_FieldIsRecoveredFromCommandByte :
    defaultCatalog.wf = true ∧ commandByte defaultCatalog (.ratio 8) = some 0x20 ∧
    commandByte defaultCatalog (.ev 31) = some 0x9F ∧ commandByte defaultCatalog (.page 16) = some 0xB0 ∧
    commandByte defaultCatalog (.colmsb 128) = some 0x10 ∧ commandByte defaultCatalog (.collsb 15) = some 0x0F ∧
    commandByte defaultCatalog (.startline 64) = some 0x40 := by
  decide

theorem witness_EncoderOperationsArePure : isEncoderOp .nop = true ∧ isEncoderOp (.startline 64) = true := by decide

theorem witness_EncoderPortNeedsOnlyEightParameterBits :
    decode (.encoder 17 0x180) = .operation (.colmsb 384) ∧ decode (.encoder 17 (0x180 % 256)) = .operation (.colmsb 128) := by
  decide

theorem witness_UnpackInvertsPack :
    unpackSelector #v[0x80, 0, 0, 0, 0, 0, 0, 0, 0] 0 ≠ unpackSelector #v[0x80, 0, 0, 0, 0, 0, 0, 0, 0] 7 := by
  decide

/-- The last group of nine bytes: its one payload byte, and its first and last filler. -/
theorem witness_FrameUnpacksToPaddedPayload :
    1 < groupCount 9 ∧ ([0, 0, 0, 0, 0, 0, 0, 0, 5] : List Byte)[8 * 1 + 0]? = some 5 ∧ 9 ≤ 8 * 1 + 1 ∧ 9 ≤ 8 * 1 + 7 := by
  decide

/-- Payloads that differ outside group 0; the octets a byte in the first and in the last slot leaves alone. -/
theorem witness_GroupsAreIndependent :
    (0 < groupCount 9 ∧ ∀ j, j < 8 → ([1, 2, 3, 4, 5, 6, 7, 8, 9] : List Byte)[8 * 0 + j]? = [1, 2, 3, 4, 5, 6, 7, 8, 0][8 * 0 + j]?) ∧
    ((2 : Fin 9) ≠ (0 : Fin 8).succ ∧ ((2 : Fin 9) ≠ (0 : Fin 8).castSucc ∨ (0 : Fin 8) = 7)) ∧
    ((7 : Fin 9) ≠ (7 : Fin 8).succ ∧ ((7 : Fin 9) ≠ (7 : Fin 8).castSucc ∨ (7 : Fin 8) = 7)) := by
  decide

theorem witness_BeginOpensLogicalWrite :
    BitVec.extractLsb' 9 3 (0x9FF : BitVec 12) = 0b100 ∧
    (State.reset.phase = .idle ∧ State.reset.params.emptyWriteSelects = false) ∧
    (State.resetWith { defaultParams with emptyWriteSelects := true }).phase = .idle ∧
    (State.resetWith { defaultParams with emptyWriteSelects := true }).params.emptyWriteSelects = true ∧
    (inWrite 0 false mute).phase = .active := by
  decide

/-- Slots 0, 6 and 7, with each answer, chip-select asserted or not. -/
theorem witness_BytePacksOneSlot :
    BitVec.extractLsb' 9 3 (0x5FF : BitVec 12) = 0b010 ∧ State.reset.phase = .idle ∧
    ((inWrite 0 false mute).phase = .active ∧ (inWrite 0 false mute).cnt.val ≤ 6) ∧
    ((inWrite 6 true mute).phase = .active ∧ (inWrite 6 true mute).cnt.val ≤ 6) ∧
    ((inWrite 7 true (answering [])).cnt = 7 ∧
      (inWrite 7 true (answering [])).transport.next = some (.ok, { answering [] with answered := 1 })) ∧
    ((inWrite 7 true (answering [.fail 7])).cnt = 7 ∧
      (inWrite 7 true (answering [.fail 7])).transport.next = some (.fail 7, { answering [] with answered := 1 })) ∧
    ((inWrite 7 false mute).phase = .active ∧ (inWrite 7 false mute).cnt = 7 ∧ (inWrite 7 false mute).transport.next = none) := by
  decide

/-- No partial group; slots 1 and 7, with each answer. -/
theorem witness_EndFlushesAndReleases :
    BitVec.extractLsb' 9 3 (0x3FF : BitVec 12) = 0b001 ∧ State.reset.phase = .idle ∧
    ((inWrite 0 false mute).phase = .active ∧ (inWrite 0 false mute).cnt = 0) ∧
    ((inWrite 1 true (answering [])).phase = .active ∧ (inWrite 1 true (answering [])).cnt ≠ 0 ∧
      (inWrite 1 true (answering [])).transport.next = some (.ok, { answering [] with answered := 1 })) ∧
    ((inWrite 7 true (answering [.fail 7])).cnt ≠ 0 ∧
      (inWrite 7 true (answering [.fail 7])).transport.next = some (.fail 7, { answering [] with answered := 1 })) ∧
    ((inWrite 7 true mute).cnt ≠ 0 ∧ (inWrite 7 true mute).transport.next = none) := by
  decide

theorem witness_ProtocolViolationsChangeNothing :
    (inWrite 0 false mute).phase = .active ∧ State.reset.phase = .idle ∧
    (20 ≤ (20 : BitVec 5).toNat ∧ (presenting [.port (.encoder 20 0)] State.reset).presented = [.port (.encoder 20 0)]) ∧
    ((BitVec.getLsbD (0x600 : BitVec 12) 10 && BitVec.getLsbD (0x600 : BitVec 12) 9) = true ∧
      (presenting [.port (.framer 0x600)] State.reset).presented = [.port (.framer 0x600)]) ∧
    (nextOf (exec (.write true [1]) (inSession .reset (answering [])))).isSome = true := by
  decide

/-- An empty payload, and two groups. -/
theorem witness_WriteTransmitsFrame :
    (inSession .operating (answering [])).phase = .idle ∧
    (inSession .operating (answering [])).transport.afterOks (groupCount 0) = some (answering []) ∧
    (inSession .operating (answering [])).transport.afterOks (groupCount 9) = some { answering [] with answered := 2 } := by
  decide

/-- The first and the last of two groups. -/
theorem witness_WriteIsAbandonedAtTheFailedGroup :
    State.reset.phase = .idle ∧
    (0 < groupCount 9 ∧ Transport.afterOks 0 (answering [.fail 7]) = some (answering [.fail 7])) ∧
    (1 < groupCount 9 ∧ Transport.afterOks 1 (answering [.ok, .fail 7]) = some { answering [.fail 7] with answered := 1 } ∧
      Transport.next { answering [.fail 7] with answered := 1 } = some (.fail 7, { answering [] with answered := 2 })) := by
  decide

/-- Inside an open write, with a failed group, and with a group never answered. -/
theorem witness_WriteIsItsPortSequence :
    (nextOf (exec (.write true [1]) (inWrite 2 true mute))).isSome = true ∧
    (nextOf (exec (.write true [1]) (inSession .reset (answering [.fail 7])))).isSome = true ∧
    faultOf (exec (.write true [1]) (inSession .reset mute)) = some .transportUnanswered := by
  decide

theorem witness_UnansweredTransmitHasNoStep :
    (inSession .reset mute).phase = .idle ∧ (inSession .operating mute).session = .operating ∧
    (inSession .operating mute).transport.afterOks 0 = some mute ∧ mute.next = none ∧ 0 < groupCount 1 ∧
    0 < 1 + groupCount 0 + 1 := by
  decide

theorem witness_WriteInsideOpenWriteIsRefused : (inWrite 3 true mute).phase = .active := by decide

theorem witness_EmptyWriteSettingOnlyMattersForEmptyWrites :
    ([0xAF] : List Byte) ≠ [] ∧ ∃ t, exec (.write false [0xAF]) (inSession .reset (answering [])) = .next t :=
  ⟨by decide, _, rfl⟩

theorem witness_InvalidSessionStateIsRefused :
    (inSession .unconfigured mute).session = .unconfigured ∧ (inSession .reset mute).session = .reset ∧
    (inSession .sleeping mute).session = .sleeping ∧ isSessionOp .nop = false ∧
    (nextOf (exec .nop State.reset)).isSome = true := by
  decide

/-- The pseudo-operations of one group, inside an open write and in IDLE; the answers are those of witness_answers. -/
theorem witness_single_group_states :
    (inSession .unconfigured mute).SessionSettled ∧ (inSession .operating mute).SessionSettled ∧
    (inSession .operating mute).phase = .idle ∧
    ({ inWrite 0 false mute with session := .operating } : State).SessionSettled ∧
    ({ inWrite 0 false mute with session := .operating } : State).phase = .active := by
  simp [inSession, inWrite, State.SessionSettled, State.reset, State.resetWith]

/-- `reset` is refused in no settled session. -/
theorem witness_ResetSendsSoftwareReset :
    (inSession .unconfigured mute).session ∈ [Session.unconfigured, .reset, .operating, .sleeping] ∧
    (inSession .sleeping mute).session ∈ [Session.unconfigured, .reset, .operating, .sleeping] := by
  decide

/-- Of the three setters. -/
theorem witness_SetContrast_SetInversion_SetRotation :
    (inSession .sleeping mute).session ∉ [Session.operating] ∧ (inSession .operating mute).session ∈ [Session.operating] := by
  decide

/-- Of both directions of sleep. -/
theorem witness_SleepTrue_SleepFalse :
    (inSession .reset mute).session ∉ [Session.operating, .sleeping] ∧
    (inSession .operating mute).session ∈ [Session.operating, .sleeping] ∧
    (inSession .sleeping mute).session ∈ [Session.operating, .sleeping] := by
  decide

/-- Both groups ok; the second one failing. -/
theorem witness_InitializeSendsNineCommands :
    (inSession .reset (answering [])).SessionSettled ∧ (inSession .sleeping mute).session = .sleeping ∧
    (inSession .reset (answering [])).transport.afterOks 2 = some { answering [] with answered := 2 } ∧
    (inSession .operating (answering [.ok, .fail 7])).transport.afterOks 1 = some { answering [.fail 7] with answered := 1 } :=
  ⟨by simp [State.SessionSettled, inSession], by decide, by decide, by decide⟩

/-- An empty framebuffer, with both groups ok and with the second of them failing; an open write. -/
theorem witness_RefreshSendsAddressDataDisplayOn :
    (inSession .operating (answering [])).session = .operating ∧ (inSession .operating (answering [])).phase = .idle ∧
    (inSession .operating (answering [])).transport.afterOks (1 + groupCount 0 + 1) = some { answering [] with answered := 2 } ∧
    1 < 1 + groupCount 0 + 1 ∧ 0 < 1 + groupCount 0 + 1 ∧
    Transport.afterOks 1 (answering [.ok, .fail 7]) = some { answering [.fail 7] with answered := 1 } ∧
    ({ inWrite 0 false mute with session := .operating } : State).phase = .active := by
  decide

theorem witness_SleepPairLeavesConfiguration :
    (inSession .operating (answering [])).session = .operating ∧ (inSession .operating (answering [])).phase = .idle ∧
    (inSession .operating (answering [])).transport.afterOks 2 = some { answering [] with answered := 2 } := by
  decide

/-- A failed set_contrast, after which the transport answers ok three times: of TransportFailureUnconfiguresSession
and RecoveryIsResetThenInitialize. -/
theorem witness_RecoveryIsResetThenInitialize :
    isSessionOp (.setContrast 1) = true ∧
    ∃ f, exec (.setContrast 1) (inSession .operating (answering [.fail 7])) = .next f ∧
      f.replies = (inSession .operating (answering [.fail 7])).replies ++ [.fault (.eTransport 7)] ∧
      f.transport.afterOks 3 = some { answering [] with answered := 4 } :=
  ⟨rfl, _, rfl, by decide, by decide⟩

theorem witness_OutputIgnoresConfigurationAndHistory :
    ∃ t, exec (.setContrast 1) (inSession .operating (answering [])) = .next t := ⟨_, rfl⟩

/-- One move for each case. -/
theorem witness_SessionMovesOnlyByItsTransitions :
    after .sessionReset (inSession .unconfigured (answering [])) (·.session) = some .reset ∧
    after (.sessionInitialize 0 false 0 0) (inSession .reset (answering [])) (·.session) = some .operating ∧
    after (.sleep true) (inSession .operating (answering [])) (·.session) = some .sleeping ∧
    after (.sleep false) (inSession .sleeping (answering [])) (·.session) = some .operating ∧
    after (.sleep true) (inSession .operating (answering [.fail 7])) (·.session) = some .unconfigured := by
  decide

theorem witness_ConfigurationChangesOnlyByItsSetters :
    after (.sessionInitialize 180 true 31 7) (inSession .reset (answering [])) (·.cfg) =
      some { rotation := .deg180, inverse := true, contrast := 31, ratio := 7 } ∧
    after (.setContrast 1) (inSession .operating (answering [])) (·.cfg) = some { resetConfig with contrast := 1 } ∧
    after (.setInversion true) (inSession .operating (answering [])) (·.cfg) = some { resetConfig with inverse := true } ∧
    after (.setRotation 180) (inSession .operating (answering [])) (·.cfg) = some { resetConfig with rotation := .deg180 } := by
  decide

/-- The last pixel of the 16 x 8 display. -/
theorem witness_PixelPositionOnTheWire :
    defaultParams.height % 8 = 0 ∧ 15 < defaultParams.width ∧ 7 < defaultParams.height ∧
    (List.replicate 16 (0 : Byte)).length = defaultParams.fbSize ∧ 15 = 15 + 7 / 8 * defaultParams.width ∧
    64 = 9 * (15 % 8) + 8 - 7 % 8 := by
  decide

theorem witness_BlockResetClearsTheFramer : (presenting [.blockReset] (inWrite 7 true mute)).presented = [.blockReset] := rfl

theorem witness_SessionConstructionUnconfigures :
    (presenting [.constructSession] (inSession .operating mute)).presented = [.constructSession] := rfl

/-- A write with a partial group open and chip-select asserted, its last BYTE presented next: of
StepKeepsBlockInvariants, StepKeepsSelectDiscipline, StepKeepsSessionSettled and TraceGrowsInProgramOrder. -/
def partialWrite : State :=
  presenting [.port (.framer 0x401)] { inWrite 7 true (answering []) with trace := [.select] }

theorem witness_StepKeepsInvariants :
    partialWrite.BlockInv ∧ partialWrite.SelectInv ∧ partialWrite.SessionSettled ∧ ∃ t, step partialWrite = .next t := by
  refine ⟨⟨?_, ?_, ⟨?_, ?_, ?_⟩, ?_, ?_⟩, ⟨rfl, fun _ => rfl⟩, ?_, _, rfl⟩ <;>
    simp [partialWrite, presenting, inWrite, State.reset, State.resetWith, Octets.zero, State.SessionSettled]

theorem witness_StepKeepsParameters :
    ∃ t, step (presenting [.port (.framer 0x200)] (inWrite 0 false mute)) = .next t := ⟨_, rfl⟩

theorem witness_SelectorIsConstantInsideWrite :
    (inWrite 0 false mute).phase = .active ∧ ∃ t, exec (.byte 1) (inWrite 0 false mute) = .next t := ⟨rfl, _, rfl⟩

theorem witness_SelectStaysAssertedInsideWrite :
    (inWrite 0 true mute).phase = .active ∧ (inWrite 0 true mute).sel = true ∧
    after (.byte 1) (inWrite 0 true mute) (·.phase) = some .active := by
  decide

/-- A reset that completes, one refused inside an open write, an instance without a line, another operation. -/
theorem witness_ResetLineMovesOnlyInReset :
    State.reset.params.hasResetLine = true ∧
    after .sessionReset (inWrite 3 true mute) (fun t => resetLineLevel t.trace) = some (some .high) ∧
    after .sessionReset { inSession .operating (answering []) with params := { defaultParams with hasResetLine := false } }
      (fun t => resetLineLevel t.trace) = some none ∧
    (nextOf (exec .sessionReset (inSession .operating (answering [])))).isSome = true ∧
    (nextOf (exec (.sleep true) (inSession .operating (answering [])))).isSome = true := by
  decide

/-- Of StepEndsUnlessTransportNeverAnswers: State.reset's transport answers; a mute one leaves the step a fault. -/
theorem witness_StepEndsUnlessTransportNeverAnswers :
    State.reset.transport.afterwards ≠ .never ∧
    faultOf (step (presenting [.port (.operation (.write false [1]))] (inWrite 7 true mute))) = none ∧
    faultOf (step (presenting [.port (.operation (.byte 1))] (inWrite 7 true mute))) = some .transportUnanswered := by
  decide

theorem witness_StepRunsThePresentedOperation :
    State.reset.presented = [] ∧ (presenting [.port (.framer 0x200)] State.reset).presented = [.port (.framer 0x200)] ∧
    decode (.framer 0x200) = .operation .endWrite ∧ decode (.framer 0x1FF) = .nothing := by
  decide

theorem witness_FramerWordsDifferOnlyInIgnoredBits :
    decode (.framer 0x9FF) = .operation (.beginWrite true) ∧ decode (.framer 0x5FF) = .operation (.byte 0xFF) ∧
    decode (.framer 0x3FF) = .operation .endWrite := by
  decide

theorem witness_EncoderIndexSelectsTwentyOperations :
    (19 : BitVec 5).toNat < 20 ∧ 20 ≤ (20 : BitVec 5).toNat ∧ decode (.encoder 13 0) = .operation .nop ∧
    decode (.encoder 13 5) = .operation .nop := by
  decide

theorem witness_CommandBytesReadBack :
    readCommandByte defaultCatalog 0x97 = some (.ev 23) ∧ commandByte defaultCatalog (.colmsb 200) = some 0x14 := by
  decide

end Sys2Proof.Tests
end

