-- ==== Sys2Proof/Proofs/Scope.lean ====
section
/-! SUPPORT. What a logical write can do in each phase, and that the setting for empty writes shows only in the trace of an empty one (R154, R159). -/

namespace Sys2Proof.Machine

open Sys2Proof.Claims

/-- WRITE is one logical write whose outcome goes to the caller (R159). -/
theorem exec_write (dc : Bool) (p : List Byte) (s : State) : exec (.write dc p) s = (logicalWrite dc p s).finish := rfl

/-- A logical write inside an open write is refused at its BEGIN (R156, R214). -/
theorem logicalWrite_of_active (dc : Bool) (p : List Byte) {s : State} (h : s.phase = .active) :
    logicalWrite dc p s = .raised (.eProtocol .beginWhileActive) s := by
  simp [logicalWrite, beginPort_of_active dc h]

/-- A logical write begun while IDLE is left unanswered, or its groups are all answered ok, or one of them is the
first to fail; the last two are the premises of `logicalWrite_of_oks` and `logicalWrite_of_fail` (R159, R212). -/
theorem logicalWrite_cases (dc : Bool) (p : List Byte) {s : State} (h : s.phase = .idle) :
    logicalWrite dc p s = .unanswered ∨
    (∃ t, s.transport.afterOks (groupCount p.length) = some t) ∨
    ∃ n u err t, n < groupCount p.length ∧ s.transport.afterOks n = some u ∧ u.next = some (.fail err, t) := by
  rcases handOver_cases (frame s.params.filler dc p) (begun dc s) with hn | hok | hfail
  · exact .inl (by rw [logicalWrite_of_idle dc p h, hn, Ran.unanswered_andThen])
  · exact .inr (.inl (by simpa [begun] using hok))
  · exact .inr (.inr (by simpa [begun] using hfail))

/-- With payload there is at least one group, so the setting does not show in the trace of the write (R154). -/
theorem writeTrace_frame_of_nonempty (b b' : Bool) (filler : Byte) (dc : Bool) {p : List Byte} (hp : p ≠ []) :
    writeTrace b (frame filler dc p) = writeTrace b' (frame filler dc p) := by
  obtain ⟨g, gs, hf, -⟩ := frame_of_nonempty filler dc hp
  simp [hf, writeTrace]

/-- Settles O23: in each outcome of the write the setting could show only in the trace, and there only without a
group. -/
theorem emptyWriteSettingOnlyMattersForEmptyWrites : Obligations.EmptyWriteSettingOnlyMattersForEmptyWrites := by
  intro s t dc b p hp h
  rw [exec_write] at h ⊢
  cases hph : s.phase with
  | active =>
    rw [logicalWrite_of_active dc p hph] at h
    rw [logicalWrite_of_active dc p (s := withEmptyWriteSelects s b) hph]
    cases h
    rfl
  | idle =>
    rcases logicalWrite_cases dc p hph with hn | ⟨u, hu⟩ | ⟨n, u, err, v, hn, hu, hv⟩
    · simp [hn] at h
    · rw [logicalWrite_of_oks dc p hph hu,
        writeTrace_frame_of_nonempty s.params.emptyWriteSelects b _ dc hp] at h
      rw [logicalWrite_of_oks dc p (s := withEmptyWriteSelects s b) hph hu]
      cases h
      rfl
    · rw [logicalWrite_of_fail dc p n hph hn hu hv] at h
      rw [logicalWrite_of_fail dc p n (s := withEmptyWriteSelects s b) hph hn hu hv]
      cases h
      rfl

end Sys2Proof.Machine
end

