-- ==== Sys2Proof/Proofs/State.lean ====
section
/-! SUPPORT. What one operation does to the registers of the framer and to the host layer, and that every step keeps the invariants of R27 and R30 and the parameters. -/

namespace Sys2Proof.Machine

/-! ### Rules for parts of an operation -/

/-- An operation answers a next state only by ending done or by raising a fault, and the reply is all that its end
adds (R210). -/
theorem Ran.Sat.next {d : State → Prop} {f : OpFault → State → Prop} {r : Ran} {t : State}
    (h : r.Sat d f) (hr : r.finish = .next t) :
    (∃ u, d u ∧ t = u.reply .done) ∨ ∃ e u, f e u ∧ t = u.reply (.fault e) := by
  cases r with
  | done u => exact .inl ⟨u, h, (Host.Outcome.next.inj hr).symm⟩
  | raised e u => exact .inr ⟨e, u, h, (Host.Outcome.next.inj hr).symm⟩
  | unanswered => cases hr

/-- `P` holds of the state in which a part of an operation ends, done or in a fault. -/
def Ran.Leaves (P : State → Prop) (r : Ran) : Prop := r.Sat P fun _ t => P t

theorem Ran.Leaves.andThen {P : State → Prop} {r : Ran} {k : State → Ran} (h : r.Leaves P)
    (hk : ∀ t, P t → (k t).Leaves P) : (r.andThen k).Leaves P :=
  Ran.Sat.andThen h hk

/-- The next part may also rely on what the part before it is known to be done in. -/
theorem Ran.Leaves.andThen_of_sat {P d : State → Prop} {r : Ran} {k : State → Ran} (h : r.Leaves P)
    (hd : r.Sat d fun _ _ => True) (hk : ∀ t, P t → d t → (k t).Leaves P) : (r.andThen k).Leaves P :=
  ((Ran.Sat.and h hd).mono (fun _ ht => ht) (fun _ _ ht => ht.1)).andThen fun t ht => hk t ht.1 ht.2

theorem Ran.Leaves.next {P : State → Prop} (hP : ∀ u r, P u → P (State.reply u r)) {r : Ran} {t : State}
    (h : r.Leaves P) (hr : r.finish = .next t) : P t := by
  rcases Ran.Sat.next h hr with ⟨u, hu, rfl⟩ | ⟨e, u, hu, rfl⟩
  · exact hP u _ hu
  · exact hP u _ hu

/-- What holds of both answers to the group holds after handing it over (R157, R219). -/
theorem transmitGroup_sat {d : State → Prop} {f : OpFault → State → Prop} {s : State}
    (hok : ∀ t, d { s with trace := s.trace ++ [.tx s.buf], transport := t, buf := Octets.zero, cnt := 0 })
    (hfail : ∀ err t, f (.eTransport err) (failedState s s.buf t)) : (transmitGroup s).Sat d f := by
  rcases h : s.transport.next with _ | ⟨_ | err, t⟩
  · rw [transmitGroup_of_none h]; trivial
  · rw [transmitGroup_of_ok h]; exact hok t
  · rw [transmitGroup_of_fail h]; exact hfail err t

/-- The body of BYTE fills a slot of an unfinished group, or hands over the group it completes (R157). -/
theorem packByte_sat {d : State → Prop} {f : OpFault → State → Prop} {s : State} (b : Byte)
    (hslot : s.cnt.val ≤ 6 → d { s with buf := packSlot s.dc s.cnt b s.buf, cnt := s.cnt + 1 })
    (hok : ∀ trace t, d { s with trace := trace, transport := t, buf := Octets.zero, cnt := 0 })
    (hfail : ∀ err g t, f (.eTransport err) (failedState { s with buf := g } g t)) : (packByte b s).Sat d f := by
  by_cases h : s.cnt.val ≤ 6
  · rw [packByte_of_le b h]; exact hslot h
  · rw [packByte_of_last b (Fin.ext (by simp; omega))]
    exact transmitGroup_sat (fun t => hok _ t) (fun err t => hfail err _ t)

theorem cnt_add_one_val {c : Fin 8} (h : c.val ≤ 6) : (c + 1).val = c.val + 1 := by
  rw [Fin.val_add_one_of_lt']; omega

/-! ### What one slot writes (R150) -/

theorem orAt_getElem_same (out : Octets) (i : Fin 9) (v : Byte) : (orAt out i v)[i] = out[i] ||| v := by
  simp [orAt]

theorem orAt_getElem_of_ne (out : Octets) {i k : Fin 9} (v : Byte) (h : i ≠ k) : (orAt out i v)[k] = out[k] := by
  simp [orAt, Fin.val_ne_of_ne h]

section
variable (dc : Bool) {i : Fin 8} (hi : i.val ≤ 6) (b : Byte) (out : Octets)
include hi

theorem packSlot_of_le : packSlot dc i b out =
    orAt (orAt (orAt out i.castSucc (selectorByte dc <<< (7 - i.val))) i.castSucc (b >>> (i.val + 1))) i.succ
      (b <<< (7 - i.val)) := by
  simp [packSlot, hi, splitStep, selectorStep]

/-- Octet `i` takes the selector bit and the high bits of the byte. -/
theorem packSlot_getElem_castSucc : (packSlot dc i b out)[i.castSucc] =
    out[i.castSucc] ||| selectorByte dc <<< (7 - i.val) ||| b >>> (i.val + 1) := by
  rw [packSlot_of_le dc hi, orAt_getElem_of_ne _ _ i.castSucc_lt_succ.ne', orAt_getElem_same, orAt_getElem_same]

/-- Octet `i + 1` takes the low bits of the byte. -/
theorem packSlot_getElem_succ : (packSlot dc i b out)[i.succ] = out[i.succ] ||| b <<< (7 - i.val) := by
  have hne : i.castSucc ≠ i.succ := i.castSucc_lt_succ.ne
  rw [packSlot_of_le dc hi, orAt_getElem_same, orAt_getElem_of_ne _ _ hne, orAt_getElem_of_ne _ _ hne]

/-- Every other octet stays as it was. -/
theorem packSlot_getElem_of_ne {k : Fin 9} (h : i.castSucc ≠ k) (h' : i.succ ≠ k) :
    (packSlot dc i b out)[k] = out[k] := by
  rw [packSlot_of_le dc hi, orAt_getElem_of_ne _ _ h', orAt_getElem_of_ne _ _ h, orAt_getElem_of_ne _ _ h]

/-- The slot's selector bit is `dc` when the bit was free: the high bits of the byte end below it. -/
theorem packSlot_selector_bit (hfree : out[i.castSucc].getLsbD (7 - i.val) = false) :
    (packSlot dc i b out)[i.castSucc].getLsbD (7 - i.val) = dc := by
  have hlast : i.val + 1 + (7 - i.val) = 8 := by omega
  have hpos : 7 - i.val < 8 := by omega
  rw [packSlot_getElem_castSucc dc hi, BitVec.getLsbD_or, BitVec.getLsbD_or, hfree, BitVec.getLsbD_ushiftRight, hlast,
    BitVec.getLsbD_shiftLeft]
  cases dc <;> simp [selectorByte, hpos]

/-- The bits of octet `i + 1` below those of the slot stay free. -/
theorem packSlot_free_bits (hfree : out[i.succ] = 0) {j : Nat} (hj : j < 7 - i.val) :
    (packSlot dc i b out)[i.succ].getLsbD j = false := by
  simp [packSlot_getElem_succ dc hi, hfree, hj]

end

/-! ### The framer's registers -/

/-- `t` holds the framer's registers (R20 to R24) as `s` does. -/
structure SameFramer (s t : State) : Prop where
  buf   : t.buf = s.buf
  dc    : t.dc = s.dc
  phase : t.phase = s.phase
  cnt   : t.cnt = s.cnt
  sel   : t.sel = s.sel

theorem sameFramer_reply (s : State) (r : Reply) : SameFramer s (s.reply r) := ⟨rfl, rfl, rfl, rfl, rfl⟩

/-- What precedes the writes of a pseudo-operation does not reach the framer. -/
theorem SessionShape.pre_sameFramer {i : Instr} (S : SessionShape i) (s : State) : SameFramer s (S.pre s) := by
  rw [S.pre_eq]
  exact ⟨rfl, rfl, rfl, rfl, rfl⟩

/-- What follows the writes of a pseudo-operation does not reach the framer. -/
theorem SessionShape.update_sameFramer {i : Instr} (S : SessionShape i) (s : State) : SameFramer s (S.update s) := by
  rw [S.update_eq]
  exact ⟨rfl, rfl, rfl, rfl, rfl⟩

/-! ### The invariants of the block (R27) -/

/-- The invariants speak of the framer's registers alone. -/
theorem State.BlockInv.of_sameFramer {s t : State} (h : s.BlockInv) (e : SameFramer s t) : t.BlockInv := by
  obtain ⟨params, buf, dc, phase, cnt, sel, session, cfg, trace, replies, presented, transport, freeCount⟩ := t
  obtain ⟨rfl, rfl, rfl, rfl, rfl⟩ := e
  obtain ⟨hidle, hstart, hpart, hopen, hsel⟩ := h
  exact ⟨hidle, hstart, hpart, hopen, hsel⟩

theorem State.BlockInv.reply {s : State} (r : Reply) (h : s.BlockInv) : (s.reply r).BlockInv :=
  h.of_sameFramer (sameFramer_reply s r)

/-- At the start of a group the invariants ask only that chip-select is released when IDLE. -/
theorem State.blockInv_of_start {s : State} (hc : s.cnt = 0) (hb : s.buf = Octets.zero)
    (hs : s.phase = .idle → s.sel = false) : s.BlockInv where
  idle_clear _ := ⟨hc, hb⟩
  group_start _ := hb
  partial_group := ⟨by simp [hb, Octets.zero], by simp [hc], by simp [hb, Octets.zero]⟩
  open_selected h := absurd hc h
  idle_unselected := hs

/-- Filling the next slot keeps R27 (c): the slot's selector bit was free, and octet `CNT + 1` was clear. -/
theorem State.PartialGroup.fillSlot {s : State} (h : s.PartialGroup) (hc : s.cnt.val ≤ 6) (b : Byte) :
    State.PartialGroup { s with buf := packSlot s.dc s.cnt b s.buf, cnt := s.cnt + 1 } := by
  obtain ⟨habove, hfilled, hfree⟩ := h
  have hcnt : (s.cnt + 1).val = s.cnt.val + 1 := cnt_add_one_val hc
  have hcast : s.cnt.castSucc.val = s.cnt.val := rfl
  have hsucc : s.cnt.succ.val = s.cnt.val + 1 := rfl
  refine ⟨fun k hk => ?_, fun k hk => ?_, fun j hj => ?_⟩
  · replace hk : s.cnt.val + 1 < k.val := hcnt ▸ hk
    have hother := packSlot_getElem_of_ne s.dc hc b s.buf (k := k) (Fin.ne_of_val_ne (by omega)) (Fin.ne_of_val_ne (by omega))
    exact hother.trans (habove k (by omega))
  · replace hk : k.val < s.cnt.val + 1 := hcnt ▸ hk
    rcases Nat.lt_or_eq_of_le (Nat.le_of_lt_succ hk) with hlt | heq
    · have hkc : k.castSucc.val = k.val := rfl
      have hother := packSlot_getElem_of_ne s.dc hc b s.buf (k := k.castSucc) (Fin.ne_of_val_ne (by omega))
        (Fin.ne_of_val_ne (by omega))
      exact (congrArg (·.getLsbD (7 - k.val)) hother).trans (hfilled k hlt)
    · obtain rfl : k = s.cnt := Fin.ext heq
      exact packSlot_selector_bit s.dc hc b s.buf (hfree ⟨7 - s.cnt.val, by omega⟩ (Nat.le_refl _))
  · replace hj : j.val ≤ 7 - (s.cnt.val + 1) := hcnt ▸ hj
    have hnext : (s.cnt + 1).castSucc = s.cnt.succ := Fin.ext hcnt
    simp only [hnext]
    exact packSlot_free_bits s.dc hc b s.buf (habove s.cnt.succ (by omega)) (by omega)

theorem failedState_blockInv (s : State) (g : Octets) (t : Transport) : (failedState s g t).BlockInv :=
  State.blockInv_of_start rfl rfl fun _ => rfl

theorem packByte_keepsBlockInv (b : Byte) {s : State} (h : s.BlockInv) (hp : s.phase = .active) (hs : s.sel = true) :
    (packByte b s).Leaves State.BlockInv := by
  have hopen : s.phase ≠ .idle := by simp [hp]
  refine packByte_sat b (fun hc => ?_) (fun _ _ => State.blockInv_of_start rfl rfl fun hi => absurd hi hopen)
    (fun _ _ _ => failedState_blockInv _ _ _)
  have hne : s.cnt + 1 ≠ 0 := fun e => by simpa [cnt_add_one_val hc] using congrArg Fin.val e
  exact
    { idle_clear := fun hi => absurd hi hopen
      group_start := fun h0 => absurd h0 hne
      partial_group := h.partial_group.fillSlot hc b
      open_selected := fun _ => hs
      idle_unselected := fun hi => absurd hi hopen }

theorem beginPort_keepsBlockInv (dc : Bool) {s : State} (h : s.BlockInv) : (beginPort dc s).Leaves State.BlockInv := by
  cases hp : s.phase with
  | idle =>
    rw [beginPort_of_idle dc hp]
    exact State.blockInv_of_start rfl rfl fun hi => by cases hi
  | active => rw [beginPort_of_active dc hp]; exact h

theorem bytePort_keepsBlockInv (b : Byte) {s : State} (h : s.BlockInv) : (bytePort b s).Leaves State.BlockInv := by
  cases hp : s.phase with
  | idle => rw [bytePort_of_idle b hp]; exact h
  | active =>
    have hs : s.assertSelect.BlockInv :=
      { idle_clear := by simpa using h.idle_clear
        group_start := by simpa using h.group_start
        partial_group := by simpa [State.PartialGroup] using h.partial_group
        open_selected := by simp
        idle_unselected := by simp [hp] }
    rw [bytePort_of_active b hp]
    exact packByte_keepsBlockInv b hs (by simpa using hp) (by simp)

/-- Inside END's loop a group is partly filled, so chip-select is asserted, as the body of BYTE needs it. -/
theorem padGroup_keepsBlockInv (fuel : Nat) {s : State} (h : s.BlockInv) (hp : s.phase = .active) :
    (padGroup fuel s).Leaves State.BlockInv := by
  induction fuel generalizing s with
  | zero => exact h
  | succ fuel ih =>
    by_cases hc : s.cnt = 0
    · rw [padGroup_of_start _ hc]; exact h
    · rw [padGroup_step _ hc]
      exact (packByte_keepsBlockInv _ h hp (h.open_selected hc)).andThen_of_sat (packByte_phase _ hp) fun _ ht hpt =>
        ih ht hpt

/-- With a round for each free slot END's loop ends at the start of a group (R23, R158). -/
theorem padGroup_cnt (fuel : Nat) {s : State} (h : s.cnt = 0 ∨ 8 ≤ s.cnt.val + fuel) :
    (padGroup fuel s).Sat (fun t => t.cnt = 0) fun _ _ => True := by
  induction fuel generalizing s with
  | zero => exact h.resolve_right (by omega)
  | succ fuel ih =>
    by_cases hc : s.cnt = 0
    · rw [padGroup_of_start _ hc]; exact hc
    · rw [padGroup_step _ hc]
      have hf := h.resolve_left hc
      refine Ran.Sat.andThen (d := fun t => t.cnt = 0 ∨ 8 ≤ t.cnt.val + fuel) ?_ fun t ht => ih ht
      exact packByte_sat _ (fun hle => .inr (by simp only [cnt_add_one_val hle]; omega)) (fun _ _ => .inl rfl)
        (fun _ _ _ => trivial)

theorem endPort_keepsBlockInv {s : State} (h : s.BlockInv) : (endPort s).Leaves State.BlockInv := by
  cases hp : s.phase with
  | idle => rw [endPort_of_idle hp]; exact h
  | active =>
    rw [endPort_of_active hp]
    refine (padGroup_keepsBlockInv 8 h hp).andThen_of_sat (padGroup_cnt 8 (.inr (by omega))) fun t ht hc => ?_
    exact State.blockInv_of_start (by simpa using hc) (by simpa using ht.group_start hc) fun _ => by simp

theorem bytesPort_keepsBlockInv (p : List Byte) {s : State} (h : s.BlockInv) : (bytesPort p s).Leaves State.BlockInv := by
  induction p generalizing s with
  | nil => exact h
  | cons b p ih => exact (bytePort_keepsBlockInv b h).andThen fun _ ht => ih ht

theorem logicalWrite_keepsBlockInv (dc : Bool) (p : List Byte) {s : State} (h : s.BlockInv) :
    (logicalWrite dc p s).Leaves State.BlockInv :=
  ((beginPort_keepsBlockInv dc h).andThen fun _ ht => bytesPort_keepsBlockInv p ht).andThen
    fun _ ht => endPort_keepsBlockInv ht

theorem logicalWrites_keepsBlockInv (ws : List (Bool × List Byte)) {s : State} (h : s.BlockInv) :
    (logicalWrites ws s).Leaves State.BlockInv := by
  induction ws generalizing s with
  | nil => exact h
  | cons w ws ih => exact (logicalWrite_keepsBlockInv w.1 w.2 h).andThen fun _ ht => ih ht

/-! ### What an operation and a step can do -/

/-- An operation returns its command byte, or is one of the framer's, or a pseudo-operation (R94, R110). -/
theorem exec_kinds (i : Instr) (s : State) :
    (∃ b, commandByte s.params.cat i = some b ∧ exec i s = .next (s.reply (.byte b))) ∨
    (∃ dc, i = .beginWrite dc) ∨ (∃ b, i = .byte b) ∨ i = .endWrite ∨ (∃ dc p, i = .write dc p) ∨
    isSessionOp i = true := by
  cases i with
  | beginWrite | byte | endWrite | write => simp
  | sessionReset | sessionInitialize | setContrast | setInversion | setRotation | sleep | refresh => simp [isSessionOp]
  | _ => exact .inl ⟨_, rfl, rfl⟩

theorem exec_beginWrite (dc : Bool) (s : State) : exec (.beginWrite dc) s = (beginPort dc s).finish := rfl
theorem exec_byte (b : Byte) (s : State) : exec (.byte b) s = (bytePort b s).finish := rfl
theorem exec_endWrite (s : State) : exec .endWrite s = (endPort s).finish := rfl

/-- An operation of the block itself keeps the framer's frame, whatever it replies (R28). -/
theorem exec_block_next {i : Instr} {s t : State} (h : isSessionOp i = false) (hx : exec i s = .next t) :
    ∃ u r, PortFrame s u ∧ t = u.reply r := by
  rcases exec_block i h s with ⟨b, hb⟩ | ⟨r, hr, ⟨cause, rfl⟩ | hf⟩
  · exact ⟨s, _, .refl s, Host.Outcome.next.inj (hx.symm.trans hb)⟩
  · exact ⟨s, _, .refl s, Host.Outcome.next.inj (hx.symm.trans hr)⟩
  · rcases hf.next (hr.symm.trans hx) with ⟨u, hu, ht⟩ | ⟨e, u, hu, ht⟩
    · exact ⟨u, _, hu, ht⟩
    · exact ⟨u, _, hu.1, ht⟩

/-- What a step keeps: a property that the operations, the two external events and the bookkeeping around them keep
(R25, R240, R242). -/
theorem step_preserves {P : State → Prop} (hexec : ∀ i s t, P s → exec i s = .next t → P t)
    (hpresent : ∀ s rest, P s → P { s with presented := rest }) (hreply : ∀ s r, P s → P (State.reply s r))
    (hreset : ∀ s, P s → P (blockReset s)) (hconstruct : ∀ s, P s → P (constructSession s)) {s t : State} (h : P s)
    (hs : step s = .next t) : P t := by
  have hended : ∀ {u}, fetch s = .ended u → P u → P t := fun hf hu =>
    Host.Outcome.next.inj ((step_of_ended hf).symm.trans hs) ▸ hu
  rcases fetch_cases s with ⟨-, hf⟩ | ⟨rest, ⟨-, hf⟩ | ⟨-, hf⟩ | ⟨w, -, ⟨i, -, hf⟩ | ⟨-, hf⟩ | ⟨why, -, hf⟩⟩⟩
  · exact hended hf h
  · exact hended hf (hreset _ (hpresent s rest h))
  · exact hended hf (hconstruct _ (hpresent s rest h))
  · exact hexec i _ t (hpresent s rest h) ((step_of_run hf).symm.trans hs)
  · exact hended hf (hpresent s rest h)
  · exact hended hf (hreply _ _ (hpresent s rest h))

/-! ### Every operation keeps the invariants of the block -/

theorem exec_session_keepsBlockInv {i : Instr} (hi : isSessionOp i = true) {s t : State} (h : s.BlockInv)
    (hx : exec i s = .next t) : t.BlockInv := by
  have hpre : ((sessionShape i hi).pre s).BlockInv := h.of_sameFramer (SessionShape.pre_sameFramer _ s)
  have hw := logicalWrites_keepsBlockInv ((sessionShape i hi).writes s.params.cat) hpre
  cases sessionOutcome i hi s with
  | invalid hv he =>
    cases hx.symm.trans he
    exact h.reply _
  | open_write hv hp he =>
    cases hx.symm.trans he
    exact hpre.of_sameFramer ⟨rfl, rfl, rfl, rfl, rfl⟩
  | completed hv hp u hr hf hu he =>
    cases hx.symm.trans he
    rw [hr] at hw
    exact (State.BlockInv.of_sameFramer hw (SessionShape.update_sameFramer _ u)).reply _
  | failed hv hp err u hr hf hu he =>
    cases hx.symm.trans he
    rw [hr] at hw
    exact State.BlockInv.of_sameFramer hw ⟨rfl, rfl, rfl, rfl, rfl⟩
  | stuck hv hp hr he => cases hx.symm.trans he

theorem exec_keepsBlockInv (i : Instr) (s t : State) (h : s.BlockInv) (hx : exec i s = .next t) : t.BlockInv := by
  rcases exec_kinds i s with ⟨b, -, hb⟩ | ⟨dc, rfl⟩ | ⟨b, rfl⟩ | rfl | ⟨dc, p, rfl⟩ | hi
  · cases hx.symm.trans hb
    exact h.reply _
  · exact (beginPort_keepsBlockInv dc h).next (fun _ => State.BlockInv.reply) hx
  · exact (bytePort_keepsBlockInv b h).next (fun _ => State.BlockInv.reply) hx
  · exact (endPort_keepsBlockInv h).next (fun _ => State.BlockInv.reply) hx
  · exact (logicalWrite_keepsBlockInv dc p h).next (fun _ => State.BlockInv.reply) hx
  · exact exec_session_keepsBlockInv hi h hx

/-- Settles O44: filling a slot, handing over a group and abandoning a write keep the invariants, and every
operation is made of these. -/
theorem stepKeepsBlockInvariants : Obligations.StepKeepsBlockInvariants := by
  intro s t h hs
  exact step_preserves (P := State.BlockInv) exec_keepsBlockInv
    (fun _ _ h => h.of_sameFramer ⟨rfl, rfl, rfl, rfl, rfl⟩) (fun _ r h => h.reply r)
    (fun _ _ => State.blockInv_of_start rfl rfl fun _ => rfl) (fun _ h => h.of_sameFramer ⟨rfl, rfl, rfl, rfl, rfl⟩) h hs

/-! ### The host layer (R30 to R35) -/

/-- The level is stored cut to 5 bits (R33). -/
theorem contrastField_eq (level : Nat) : contrastField level = BitVec.ofNat 5 level :=
  BitVec.eq_of_toNat_eq (by simp [contrastField, Nat.and_two_pow_sub_one_eq_mod level 5])

theorem SessionShape.pre_params {i : Instr} (S : SessionShape i) (s : State) : (S.pre s).params = s.params := by
  rw [S.pre_eq]

theorem SessionShape.pre_cfg {i : Instr} (S : SessionShape i) (s : State) : (S.pre s).cfg = s.cfg := by
  rw [S.pre_eq]

theorem SessionShape.update_replies {i : Instr} (S : SessionShape i) (s : State) :
    (S.update s).replies = s.replies := by
  rw [S.update_eq]

theorem SessionShape.pre_replies {i : Instr} (S : SessionShape i) (s : State) : (S.pre s).replies = s.replies := by
  rw [S.pre_eq]

theorem SessionShape.update_params {i : Instr} (S : SessionShape i) (s : State) : (S.update s).params = s.params := by
  rw [S.update_eq]

/-- A pseudo-operation completes its writes and then updates the host layer, or leaves `CFG` alone and the session as it
was or, after a failed transmit, unconfigured (R183, R213, R221). -/
theorem exec_session_next {i : Instr} (hi : isSessionOp i = true) {s t : State} (hx : exec i s = .next t) :
    (∃ u, PortFrame ((sessionShape i hi).pre s) u ∧ t = ((sessionShape i hi).update u).reply .done) ∨
    t.params = s.params ∧ t.cfg = s.cfg ∧ (t.session = s.session ∨ t.session = .unconfigured) := by
  have hparams := SessionShape.pre_params (sessionShape i hi) s
  have hcfg := SessionShape.pre_cfg (sessionShape i hi) s
  cases sessionOutcome i hi s with
  | invalid hv he => cases hx.symm.trans he; exact .inr ⟨rfl, rfl, .inl rfl⟩
  | open_write hv hp he => cases hx.symm.trans he; exact .inr ⟨hparams, hcfg, .inl rfl⟩
  | completed hv hp u hr hf hu he => exact .inl ⟨u, hf, Host.Outcome.next.inj (hx.symm.trans he)⟩
  | failed hv hp err u hr hf hu he =>
    cases hx.symm.trans he
    exact .inr ⟨hf.params.trans hparams, hf.cfg.trans hcfg, .inr rfl⟩
  | stuck hv hp hr he => cases hx.symm.trans he

/-- Settles O38: only an update stores into `CFG`, and the seven updates are those of R184 to R197. -/
theorem configurationChangesOnlyByItsSetters : Obligations.ConfigurationChangesOnlyByItsSetters := by
  intro i s t hx hcfg
  cases hi : isSessionOp i with
  | false =>
    obtain ⟨u, r, hu, rfl⟩ := exec_block_next hi hx
    exact absurd hu.cfg hcfg
  | true =>
    rcases exec_session_next hi hx with ⟨u, hu, rfl⟩ | ⟨-, hc, -⟩
    · have hc : u.cfg = s.cfg := hu.cfg.trans (SessionShape.pre_cfg _ s)
      have hr : u.replies = s.replies := hu.replies.trans (SessionShape.pre_replies _ s)
      refine ⟨by rw [reply_replies, SessionShape.update_replies, hr], ?_⟩
      cases i with
      | sessionInitialize rotation inverse contrast ratio => exact .inl ⟨_, _, _, _, rfl⟩
      | setContrast level =>
        exact .inr (.inl ⟨level, rfl, by simp [sessionShape, hc, contrastField_eq]⟩)
      | setInversion flag => exact .inr (.inr (.inl ⟨flag, rfl, by simp [sessionShape, hc]⟩))
      | setRotation rotation =>
        exact .inr (.inr (.inr ⟨rotation, rfl, by simp [sessionShape, hc, rotationField]⟩))
      | sessionReset | sleep | refresh => exact absurd hc hcfg
      | _ => cases hi
    · exact absurd hc hcfg

/-- A completed pseudo-operation leaves the session settled: initialize, which enters Initializing, leaves it for
Operating (R30, R186). -/
theorem update_sessionSettled {i : Instr} (hi : isSessionOp i = true) {s u : State} (h : s.SessionSettled)
    (hu : PortFrame ((sessionShape i hi).pre s) u) : State.SessionSettled ((sessionShape i hi).update u) := by
  cases i with
  | sessionReset | sessionInitialize => simp [sessionShape, State.SessionSettled]
  | sleep enable => cases enable <;> simp [sessionShape, State.SessionSettled]
  | setContrast | setInversion | setRotation | refresh => exact fun hs => h (hu.session.symm.trans hs)
  | _ => cases hi

theorem exec_keepsSessionSettled (i : Instr) (s t : State) (h : s.SessionSettled) (hx : exec i s = .next t) :
    t.SessionSettled := by
  cases hi : isSessionOp i with
  | false =>
    obtain ⟨u, r, hu, rfl⟩ := exec_block_next hi hx
    exact fun hs => h (hu.session.symm.trans hs)
  | true =>
    rcases exec_session_next hi hx with ⟨u, hu, rfl⟩ | ⟨-, -, hs | hs⟩
    · exact update_sessionSettled hi h hu
    · exact fun ht => h (hs.symm.trans ht)
    · simp [State.SessionSettled, hs]

/-- Settles O46: a framer operation leaves the session alone and a pseudo-operation leaves it settled. -/
theorem stepKeepsSessionSettled : Obligations.StepKeepsSessionSettled := by
  intro s t h hs
  exact step_preserves (P := State.SessionSettled) exec_keepsSessionSettled (fun _ _ h => h) (fun _ _ h => h)
    (fun _ h => h) (fun _ _ => by simp [State.SessionSettled]) h hs

theorem exec_params (i : Instr) (s t : State) (hx : exec i s = .next t) : t.params = s.params := by
  cases hi : isSessionOp i with
  | false =>
    obtain ⟨u, r, hu, rfl⟩ := exec_block_next hi hx
    exact hu.params
  | true =>
    rcases exec_session_next hi hx with ⟨u, hu, rfl⟩ | ⟨hp, -⟩
    · exact (SessionShape.update_params _ u).trans (hu.params.trans (SessionShape.pre_params _ s))
    · exact hp

/-- Settles O47: having the parameters of the first state is kept by every step. -/
theorem stepKeepsParameters : Obligations.StepKeepsParameters := by
  intro s t hs
  exact step_preserves (P := fun u => u.params = s.params) (fun i u v hu hx => (exec_params i u v hx).trans hu)
    (fun _ _ h => h) (fun _ _ h => h) (fun _ h => h) (fun _ h => h) rfl hs

/-! ### Inside an open write (R21, R24) -/

/-- Inside an open write only BYTE and END reach the framer (R213, R214, R218). -/
theorem exec_of_active {i : Instr} {s t : State} (h : s.phase = .active) (hx : exec i s = .next t) :
    (∃ b, i = .byte b ∧ (packByte b s.assertSelect).finish = .next t) ∨
    (i = .endWrite ∧ (endPort s).finish = .next t) ∨
    (∀ b, i ≠ .byte b) ∧ SameFramer s t := by
  rcases exec_kinds i s with ⟨b, hc, hb⟩ | ⟨dc, rfl⟩ | ⟨b, rfl⟩ | rfl | ⟨dc, p, rfl⟩ | hi
  · cases hx.symm.trans hb
    exact .inr (.inr ⟨fun d hd => (by subst hd; cases hc), sameFramer_reply s _⟩)
  · rw [exec_beginWrite, beginPort_of_active dc h] at hx
    cases hx
    exact .inr (.inr ⟨nofun, sameFramer_reply s _⟩)
  · rw [exec_byte, bytePort_of_active b h] at hx
    exact .inl ⟨b, rfl, hx⟩
  · exact .inr (.inl ⟨rfl, hx⟩)
  · rw [exec_write, logicalWrite_of_active dc p h] at hx
    cases hx
    exact .inr (.inr ⟨nofun, sameFramer_reply s _⟩)
  · have hb : ∀ b, i ≠ .byte b := by rintro b rfl; cases hi
    cases sessionOutcome i hi s with
    | invalid hv he => cases hx.symm.trans he; exact .inr (.inr ⟨hb, sameFramer_reply s _⟩)
    | open_write hv hp he =>
      cases hx.symm.trans he
      obtain ⟨hbuf, hdc, hphase, hcnt, hsel⟩ := SessionShape.pre_sameFramer (sessionShape i hi) s
      exact .inr (.inr ⟨hb, hbuf, hdc, hphase, hcnt, hsel⟩)
    | completed hv hp | failed hv hp | stuck hv hp => cases h.symm.trans hp

theorem packByte_leaves_dc (b : Byte) (s : State) : (packByte b s).Leaves fun t => t.dc = s.dc :=
  packByte_sat b (fun _ => rfl) (fun _ _ => rfl) (fun _ _ _ => rfl)

/-- A BYTE that goes on leaves chip-select as it is; one that fails abandons the write (R219). -/
theorem packByte_sel (b : Byte) (s : State) :
    (packByte b s).Sat (fun t => t.sel = s.sel) fun _ t => t.phase = .idle :=
  packByte_sat b (fun _ => rfl) (fun _ _ => rfl) (fun _ _ _ => rfl)

theorem padGroup_leaves_dc (fuel : Nat) {dc : Bool} {s : State} (h : s.dc = dc) :
    (padGroup fuel s).Leaves fun t => t.dc = dc := by
  induction fuel generalizing s with
  | zero => exact h
  | succ fuel ih =>
    by_cases hc : s.cnt = 0
    · rw [padGroup_of_start _ hc]; exact h
    · rw [padGroup_step _ hc]
      exact Ran.Leaves.andThen (h ▸ packByte_leaves_dc _ s) fun _ ht => ih ht

theorem endPort_leaves_dc {s : State} (h : s.phase = .active) : (endPort s).Leaves fun t => t.dc = s.dc := by
  rw [endPort_of_active h]
  exact (padGroup_leaves_dc 8 rfl).andThen fun t ht => (releaseSelect_dc t).trans ht

/-- END leaves the write closed, done or abandoned (R158, R219). -/
theorem endPort_leaves_idle {s : State} (h : s.phase = .active) : (endPort s).Leaves fun t => t.phase = .idle :=
  ((endPort_framed h).1.and (endPort_framed h).2).mono (fun _ ht => ht.2) fun _ _ ⟨⟨_, _, _, hp, _⟩, _⟩ => hp

/-- Settles O49: BYTE and END pack with the selector of the write, and nothing else reaches the framer. -/
theorem selectorIsConstantInsideWrite : Obligations.SelectorIsConstantInsideWrite := by
  intro i s t h hx
  rcases exec_of_active h hx with ⟨b, -, hb⟩ | ⟨-, he⟩ | ⟨-, hf⟩
  · exact ((packByte_leaves_dc b s.assertSelect).next (fun _ _ hu => hu) hb).trans (assertSelect_dc s)
  · exact (endPort_leaves_dc h).next (fun _ _ hu => hu) he
  · exact hf.dc

/-- Settles O50: BYTE asserts chip-select and END closes the write. -/
theorem selectStaysAssertedInsideWrite : Obligations.SelectStaysAssertedInsideWrite := by
  intro i s t h hx hopen
  rcases exec_of_active h hx with ⟨b, -, hb⟩ | ⟨-, he⟩ | ⟨hi, hf⟩
  · rcases (packByte_sel b s.assertSelect).next hb with ⟨u, hu, rfl⟩ | ⟨e, u, hu, rfl⟩
    · have hsel : u.sel = true := hu.trans (assertSelect_sel s)
      exact ⟨fun _ => hsel, fun _ _ => hsel⟩
    · cases hopen.symm.trans hu
  · have hidle : t.phase = .idle := (endPort_leaves_idle h).next (fun _ _ hu => hu) he
    cases hopen.symm.trans hidle
  · exact ⟨fun hs => hf.sel.trans hs, fun d hd => absurd hd (hi d)⟩

/-! ### Reset, and the operation a step runs -/

/-- Settles O43: at reset a group starts, nothing has been emitted and no session is configured. -/
theorem resetMeetsTheInvariants : Obligations.ResetMeetsTheInvariants := by
  intro p
  have hblock : (State.resetWith p).BlockInv := State.blockInv_of_start rfl rfl fun _ => rfl
  have hselect : (State.resetWith p).SelectInv := ⟨rfl, fun hs => by cases hs⟩
  exact ⟨hblock, hselect, fun hs => by cases hs⟩

/-- Settles O53: in each case what `fetch` takes decides the step. -/
theorem stepRunsThePresentedOperation : Obligations.StepRunsThePresentedOperation := by
  intro s
  refine ⟨fun hp => step_of_ended ?_, fun w rest hp => ⟨fun i hd => step_of_run ?_, fun hd => step_of_ended ?_⟩⟩
  · simp [fetch, hp]
  · simp [fetch, hp, hd]
  · simp [fetch, hp, hd]

end Sys2Proof.Machine
end

