-- ==== Sys2Proof/Proofs/Memory.lean ====
section
/-! SUPPORT. Where the bits of a payload and of the framebuffer travel on the wire (R53, R57), what an operation adds to the history (R67), and when it does not end (R68, R262). -/

namespace Sys2Proof.Machine

/-! ### The octets of a wire group (R57, R87) -/

/-- Only the slots `k - 1` and `k` write octet `k`; what slot 7 shifts out of octet 7 is nothing. -/
theorem packGroup_getElem (dc : Bool) (chunk : Chunk) (k : Fin 9) : (packGroup dc chunk)[k] = closedOctet dc chunk k := by
  have hout : chunk[7] >>> 8 = 0 := BitVec.ushiftRight_eq_zero (Nat.le_refl 8)
  rw [packGroup_eq_slots]
  fin_cases k <;> simp [packSlot, splitStep, selectorStep, orAt, Octets.zero, closedOctet, hout]

theorem selectorByte_getLsbD (dc : Bool) (j : Nat) : (selectorByte dc).getLsbD j = (decide (j = 0) && dc) := by
  cases dc <;> simp [selectorByte]

@[simp] theorem bitsMsbFirst_length (b : Byte) : (bitsMsbFirst b).length = 8 := by simp [bitsMsbFirst]

theorem bitsMsbFirst_getElem? (b : Byte) {j : Nat} (h : j < 8) : (bitsMsbFirst b)[j]? = some (b.getLsbD (7 - j)) := by
  simp [bitsMsbFirst, h]

/-- The bits of octet `k`: the last `k` of byte `a`, the selector bit, the first `7 - k` of byte `b`. -/
theorem bitsMsbFirst_closed (dc : Bool) (a b : Byte) {k : Nat} (h : k ≤ 7) :
    bitsMsbFirst (a <<< (8 - k) ||| selectorByte dc <<< (7 - k) ||| b >>> (k + 1)) =
      (bitsMsbFirst a).drop (8 - k) ++ dc :: (bitsMsbFirst b).take (7 - k) := by
  have hsel : (selectorByte dc)[0] = dc := selectorByte_getLsbD dc 0
  -- For a given octet both sides are eight literal bits.
  interval_cases k <;> simp [bitsMsbFirst, List.range_succ, selectorByte_getLsbD, hsel]

theorem packGroup_zero_bits (dc : Bool) (chunk : Chunk) :
    bitsMsbFirst (packGroup dc chunk)[0] = dc :: (bitsMsbFirst chunk[0]).take 7 := by
  have hclosed : (packGroup dc chunk)[0] = (0 : Byte) <<< (8 - 0) ||| selectorByte dc <<< (7 - 0) ||| chunk[0] >>> (0 + 1) := by
    simpa [closedOctet] using packGroup_getElem dc chunk 0
  rw [hclosed, bitsMsbFirst_closed dc _ _ (Nat.zero_le 7), List.drop_eq_nil_of_le (by simp)]
  rfl

theorem packGroup_succ_bits (dc : Bool) (chunk : Chunk) {k : Nat} (h : k < 7) :
    bitsMsbFirst (packGroup dc chunk)[k + 1] =
      (bitsMsbFirst chunk[k]).drop (7 - k) ++ dc :: (bitsMsbFirst chunk[k + 1]).take (6 - k) := by
  have hclosed : (packGroup dc chunk)[k + 1] = chunk[k] <<< (8 - (k + 1)) ||| selectorByte dc <<< (7 - (k + 1)) |||
      chunk[k + 1] >>> (k + 1 + 1) := by
    simpa [closedOctet, h, Fin.ext_iff] using packGroup_getElem dc chunk ⟨k + 1, by omega⟩
  rw [hclosed, bitsMsbFirst_closed dc _ _ (show k + 1 ≤ 7 by omega)]
  simp

theorem packGroup_last (dc : Bool) (chunk : Chunk) : (packGroup dc chunk)[8] = chunk[7] := packGroup_getElem dc chunk 8

theorem toList_take_succ {α : Type} {m : Nat} (v : Vector α m) (k : Nat) (h : k < m) :
    v.toList.take (k + 1) = v.toList.take k ++ [v[k]] := by
  rw [List.take_succ_eq_append_getElem (by simpa using h), Vector.getElem_toList]

/-- Octets `0` to `k` carry the tagged bytes before byte `k`, and of its own the selector bit and the first `7 - k` bits. -/
theorem packGroup_take_bits (dc : Bool) (chunk : Chunk) (k : Nat) (h : k < 8) :
    ((packGroup dc chunk).toList.take (k + 1)).flatMap bitsMsbFirst =
      ((chunk.toList.take k).flatMap fun c => dc :: bitsMsbFirst c) ++ dc :: (bitsMsbFirst chunk[k]).take (7 - k) := by
  induction k with
  | zero => simp [toList_take_succ, packGroup_zero_bits]
  | succ k ih =>
    have hjoin : ∀ r, (bitsMsbFirst chunk[k]).take (7 - k) ++ ((bitsMsbFirst chunk[k]).drop (7 - k) ++ r) =
        bitsMsbFirst chunk[k] ++ r := fun r => by rw [← List.append_assoc, List.take_append_drop]
    rw [toList_take_succ _ (k + 1) (by omega), toList_take_succ chunk k (by omega), List.flatMap_append, List.flatMap_append,
      ih (by omega)]
    simp [packGroup_succ_bits dc chunk (show k < 7 by omega), hjoin]

theorem wireBits_packGroup (dc : Bool) (chunk : Chunk) : wireBits (packGroup dc chunk) = taggedBits dc chunk := by
  have hout := toList_take_succ (packGroup dc chunk) 8 (by omega)
  have hchunk := toList_take_succ chunk 7 (by omega)
  rw [List.take_of_length_le (by simp)] at hout hchunk
  rw [wireBits, taggedBits, hout, hchunk, List.flatMap_append, packGroup_take_bits dc chunk 7 (by omega)]
  simp [packGroup_last]

/-- Settles O8: octet by octet, each ends in the middle of a tagged byte and the next goes on from there. -/
theorem wireGroupIsTaggedBytesConcatenated : Obligations.WireGroupIsTaggedBytesConcatenated := by
  intro dc chunk
  refine ⟨wireBits_packGroup dc chunk, ?_⟩
  simp [wireBits, List.length_flatMap]

/-! ### Where a payload bit travels (R86) -/

/-- In pieces of one length `w`, element `w * k + j` is element `j` of piece `k`. -/
theorem getElem?_flatMap_of_length {α β : Type} {f : α → List β} {w : Nat} (hf : ∀ x, (f x).length = w) (l : List α)
    (k : Nat) {j : Nat} (hj : j < w) : (l.flatMap f)[w * k + j]? = l[k]?.bind fun x => (f x)[j]? := by
  induction l generalizing k with
  | nil => simp
  | cons x l ih =>
    cases k with
    | zero => simp [List.getElem?_append, hf, hj]
    | succ k =>
      rw [List.flatMap_cons, List.getElem?_append_right (by rw [hf, Nat.mul_succ]; omega), hf,
        show w * (k + 1) + j - w = w * k + j by rw [Nat.mul_succ]; omega, ih]
      rfl

/-- Bit `7 - j` of octet `k` is wire bit `8k + j` (R57). -/
theorem wireBits_getElem? (out : Octets) {n : Nat} (h : n < 72) :
    (wireBits out)[n]? = some ((out.toList.getD (n / 8) 0).getLsbD (7 - n % 8)) := by
  have hk : n / 8 < out.toList.length := by simp; omega
  have hbits := getElem?_flatMap_of_length bitsMsbFirst_length out.toList (n / 8) (Nat.mod_lt n (by omega))
  rw [Nat.div_add_mod] at hbits
  rw [wireBits, hbits, List.getElem?_eq_getElem hk, List.getD_eq_getElem _ _ hk]
  exact bitsMsbFirst_getElem? _ (Nat.mod_lt n (by omega))

/-- Bit `j` of payload byte `k` is bit `9k + 8 - j` of the tagged bytes (R85). -/
theorem taggedBits_getElem? (dc : Bool) (chunk : Chunk) (k j : Fin 8) :
    (taggedBits dc chunk)[9 * k.val + 8 - j.val]? = some (chunk[k].getLsbD j.val) := by
  have hbits := getElem?_flatMap_of_length (f := fun c => dc :: bitsMsbFirst c) (w := 9) (by simp) chunk.toList k.val
    (j := 7 - j.val + 1) (by omega)
  rw [taggedBits, show 9 * k.val + 8 - j.val = 9 * k.val + (7 - j.val + 1) by omega, hbits,
    List.getElem?_eq_getElem (by simp), Option.bind_some, List.getElem?_cons_succ, bitsMsbFirst_getElem? _ (by omega),
    show 7 - (7 - j.val) = j.val by omega]
  rfl

/-- Bit `j` of payload byte `k` is wire bit `9k + 8 - j` of its group (R86). -/
theorem packGroup_wire_bit (dc : Bool) (chunk : Chunk) (k j : Fin 8) :
    ((packGroup dc chunk).toList.getD ((9 * k.val + 8 - j.val) / 8) 0).getLsbD (7 - (9 * k.val + 8 - j.val) % 8) =
      chunk[k].getLsbD j.val := by
  have hwire := wireBits_getElem? (packGroup dc chunk) (n := 9 * k.val + 8 - j.val) (by omega)
  rw [wireBits_packGroup, taggedBits_getElem?] at hwire
  exact (Option.some.inj hwire).symm

/-! ### Where a pixel travels (R53, R59) -/

/-- Rows 0 to `height - 1` fill whole bands of 8, so no pixel's byte lies beyond the framebuffer (N9). -/
theorem pixelIndex_lt {p : Params} {x y : Nat} (hh : p.height % 8 = 0) (hx : x < p.width) (hy : y < p.height) :
    pixelIndex p x y < p.fbSize := by
  obtain ⟨bands, hb⟩ := Nat.dvd_of_mod_eq_zero hh
  have hsize : p.fbSize = bands * p.width := by
    rw [Params.fbSize, hb, show p.width * (8 * bands) = 8 * (bands * p.width) by ring, Nat.mul_div_cancel_left _ (by omega)]
  have hband : y / 8 + 1 ≤ bands := by omega
  calc pixelIndex p x y < p.width + y / 8 * p.width := Nat.add_lt_add_right hx _
    _ = (y / 8 + 1) * p.width := by ring
    _ ≤ p.fbSize := hsize ▸ Nat.mul_le_mul_right _ hband

@[simp] theorem framebufferPayload_length (fb : List Byte) : (framebufferPayload fb).length = fb.length := by
  simp [framebufferPayload]

theorem framebufferPayload_getD {fb : List Byte} {k : Nat} (h : k < fb.length) (d : Byte) :
    (framebufferPayload fb).getD k d = memRead fb k := by
  simp [framebufferPayload, h]

/-- Byte `k` of a payload stands in slot `k % 8` of group `k / 8` of its frame. -/
theorem frame_getElem?_div (filler : Byte) (dc : Bool) {p : List Byte} {k : Nat} (h : k < p.length) :
    (frame filler dc p)[k / 8]? = some (packGroup dc (chunkOf filler p (k / 8))) := by
  have hg : k / 8 < groupCount p.length := by simp only [groupCount]; omega
  simp [frame, hg]

theorem chunkOf_getElem_mod (filler : Byte) (p : List Byte) (k : Nat) :
    (chunkOf filler p (k / 8))[Fin.ofNat 8 k] = p.getD k filler := by
  simp [chunkOf, Nat.div_add_mod]

/-- Settles O39: the pixel is bit `y % 8` of payload byte `k`, which stands in slot `k % 8` of group `k / 8`. -/
theorem pixelPositionOnTheWire : Obligations.PixelPositionOnTheWire := by
  intro p fb x y k n hh hx hy hlen hk hn
  have hlt : k < p.fbSize := hk ▸ pixelIndex_lt hh hx hy
  refine ⟨hlt, _, frame_getElem?_div p.filler true (by simpa [hlen] using hlt), ?_⟩
  rw [hn]
  refine (packGroup_wire_bit true _ (Fin.ofNat 8 k) (Fin.ofNat 8 y)).trans ?_
  rw [chunkOf_getElem_mod, framebufferPayload_getD (hlen ▸ hlt), hk]
  rfl

/-! ### What an operation adds to the history (R26, R67) -/

theorem SessionShape.update_trace {i : Instr} (S : SessionShape i) (s : State) : (S.update s).trace = s.trace := by
  rw [S.update_eq]

/-- What precedes the writes of a pseudo-operation and the writes themselves add to the trace; its end replies once. -/
theorem exec_session_history {i : Instr} (hi : isSessionOp i = true) {s t : State} (hx : exec i s = .next t) :
    (∃ es, t.trace = s.trace ++ es) ∧ ∃ r, t.replies = s.replies ++ [r] := by
  obtain ⟨before, hb⟩ := (sessionShape i hi).pre_trace s
  have hr := SessionShape.pre_replies (sessionShape i hi) s
  have hwrites : ∀ {u}, PortFrame ((sessionShape i hi).pre s) u →
      (∃ es, u.trace = s.trace ++ es) ∧ u.replies = s.replies := by
    intro u hu
    obtain ⟨es, he, -⟩ := hu.trace
    exact ⟨⟨before ++ es, by rw [he, hb, List.append_assoc]⟩, hu.replies.trans hr⟩
  cases sessionOutcome i hi s with
  | invalid hv he => cases hx.symm.trans he; exact ⟨⟨[], by simp⟩, _, rfl⟩
  | open_write hv hp he => cases hx.symm.trans he; exact ⟨⟨before, hb⟩, _, congrArg (· ++ _) hr⟩
  | completed hv hp u hw hf hu he =>
    cases hx.symm.trans he
    obtain ⟨⟨es, he⟩, hr⟩ := hwrites hf
    exact ⟨⟨es, (SessionShape.update_trace _ u).trans he⟩, _, congrArg (· ++ _) ((SessionShape.update_replies _ u).trans hr)⟩
  | failed hv hp err u hw hf hu he =>
    cases hx.symm.trans he
    obtain ⟨htrace, hr⟩ := hwrites hf
    exact ⟨htrace, _, congrArg (· ++ _) hr⟩
  | stuck hv hp hw he => cases hx.symm.trans he

theorem exec_history (i : Instr) {s t : State} (hx : exec i s = .next t) :
    (∃ es, t.trace = s.trace ++ es) ∧ ∃ r, t.replies = s.replies ++ [r] := by
  cases hi : isSessionOp i with
  | true => exact exec_session_history hi hx
  | false =>
    obtain ⟨u, r, hu, rfl⟩ := exec_block_next hi hx
    obtain ⟨es, he, -⟩ := hu.trace
    exact ⟨⟨es, he⟩, r, congrArg (· ++ [r]) hu.replies⟩

/-- The history of `t` continues that of `s`. -/
def HistoryGrows (s t : State) : Prop := s.trace <+: t.trace ∧ s.replies <+: t.replies

theorem exec_historyGrows (s : State) (i : Instr) (u v : State) (hu : HistoryGrows s u) (hx : exec i u = .next v) :
    HistoryGrows s v := by
  obtain ⟨⟨es, he⟩, r, hr⟩ := exec_history i hx
  exact ⟨hu.1.trans ⟨es, he.symm⟩, hu.2.trans ⟨[r], hr.symm⟩⟩

/-- Settles O48: an operation adds to the history, and what a step does around it only adds to it. -/
theorem traceGrowsInProgramOrder : Obligations.TraceGrowsInProgramOrder := by
  refine ⟨fun s t hs => ?_, fun i s t hx => (exec_history i hx).2⟩
  exact step_preserves (P := HistoryGrows s) (exec_historyGrows s) (fun _ _ h => h)
    (fun _ r h => ⟨h.1, h.2.trans (List.prefix_append _ [r])⟩) (fun _ h => h) (fun _ h => h)
    ⟨List.prefix_rfl, List.prefix_rfl⟩ hs

/-! ### When an operation ends (R68, R262) -/

theorem SessionShape.pre_transport {i : Instr} (S : SessionShape i) (s : State) : (S.pre s).transport = s.transport := by
  rw [S.pre_eq]

/-- An operation ends, or is stuck on a transport that at some point never answers. -/
def EndsOrStuck (s : State) (o : Host.Outcome State Fault Refusal) : Prop :=
  (∃ t, o = .next t) ∨ o = .fault .transportUnanswered ∧ s.transport.afterwards = .never

theorem Ran.finish_endsOrStuck {r : Ran} {s : State} (h : s.transport.afterwards ≠ .never → r.Answered) :
    EndsOrStuck s r.finish := by
  cases r with
  | done t => exact .inl ⟨_, rfl⟩
  | raised e t => exact .inl ⟨_, rfl⟩
  | unanswered => exact .inr ⟨rfl, not_not.1 fun hn => (h hn).1 rfl⟩

theorem exec_endsOrStuck (i : Instr) (s : State) : EndsOrStuck s (exec i s) := by
  rcases exec_kinds i s with ⟨b, -, hb⟩ | ⟨dc, rfl⟩ | ⟨b, rfl⟩ | rfl | ⟨dc, p, rfl⟩ | hi
  · exact .inl ⟨_, hb⟩
  · exact Ran.finish_endsOrStuck (beginPort_answered dc)
  · exact Ran.finish_endsOrStuck (bytePort_answered b)
  · exact Ran.finish_endsOrStuck endPort_answered
  · exact Ran.finish_endsOrStuck (logicalWrite_answered dc p)
  · cases sessionOutcome i hi s with
    | invalid hv he => exact .inl ⟨_, he⟩
    | open_write hv hp he => exact .inl ⟨_, he⟩
    | completed hv hp u hw hf hu he => exact .inl ⟨_, he⟩
    | failed hv hp err u hw hf hu he => exact .inl ⟨_, he⟩
    | stuck hv hp hw he =>
      refine .inr ⟨he, not_not.1 fun hn => ?_⟩
      exact (logicalWrites_answered _ ((SessionShape.pre_transport _ s).symm ▸ hn)).1 hw

theorem step_endsOrStuck (s : State) : EndsOrStuck s (step s) := by
  rcases fetch_cases s with ⟨-, hf⟩ | ⟨rest, ⟨-, hf⟩ | ⟨-, hf⟩ | ⟨w, -, ⟨i, -, hf⟩ | ⟨-, hf⟩ | ⟨why, -, hf⟩⟩⟩
  · exact .inl ⟨_, step_of_ended hf⟩
  · exact .inl ⟨_, step_of_ended hf⟩
  · exact .inl ⟨_, step_of_ended hf⟩
  · exact (step_of_run hf).symm ▸ exec_endsOrStuck i { s with presented := rest }
  · exact .inl ⟨_, step_of_ended hf⟩
  · exact .inl ⟨_, step_of_ended hf⟩

/-- Settles O52: a step has a next state or is stuck on the transport; there is no third outcome. -/
theorem stepEndsUnlessTransportNeverAnswers : Obligations.StepEndsUnlessTransportNeverAnswers := by
  intro s
  rcases step_endsOrStuck s with ⟨t, ht⟩ | ⟨hf, hn⟩
  · simp [ht]
  · simp [hf, hn]

/-! ### A `Tx` that is never answered (R68) -/

theorem logicalWrite_of_none (dc : Bool) (p : List Byte) (n : Nat) {s : State} {u : Transport} (h : s.phase = .idle)
    (hn : n < groupCount p.length) (hu : s.transport.afterOks n = some u) (hf : u.next = none) :
    logicalWrite dc p s = .unanswered := by
  rw [logicalWrite_of_idle dc p h, handOver_of_none _ n (by simpa using hn) (s := begun dc s) hu hf, Ran.unanswered_andThen]

/-- Group `n`, counted through the writes, is never answered: the writes before it are complete. -/
theorem logicalWrites_of_none (ws : List (Bool × List Byte)) (n : Nat) {s : State} {u : Transport} (h : s.phase = .idle)
    (hn : n < groupTotal ws) (hu : s.transport.afterOks n = some u) (hf : u.next = none) :
    logicalWrites ws s = .unanswered := by
  induction ws generalizing s n with
  | nil => simp [groupTotal] at hn
  | cons w ws ih =>
    obtain ⟨dc, p⟩ := w
    by_cases hlt : n < groupCount p.length
    · rw [logicalWrites, logicalWrite_of_none dc p n h hlt hu hf, Ran.unanswered_andThen]
    · have hle : groupCount p.length + (n - groupCount p.length) = n := by omega
      rw [← hle, Transport.afterOks_add] at hu
      obtain ⟨v, hv, hv'⟩ := Option.bind_eq_some_iff.1 hu
      rw [logicalWrites, logicalWrite_of_oks dc p h hv, Ran.done_andThen]
      refine ih (n - groupCount p.length) rfl ?_ hv'
      simp only [groupTotal, List.map_cons, List.sum_cons] at hn ⊢
      omega

/-- A valid pseudo-operation presented while IDLE is stuck on a group of its writes that is never answered. -/
theorem exec_session_of_none {i : Instr} (S : SessionShape i) (n : Nat) {s : State} {u : Transport}
    (hv : validIn S.op s.session = true) (hp : s.phase = .idle) (hn : n < groupTotal (S.writes s.params.cat))
    (hu : s.transport.afterOks n = some u) (hf : u.next = none) : exec i s = .fault .transportUnanswered := by
  have hpre : (S.pre s).phase = .idle := (SessionShape.pre_sameFramer S s).phase.trans hp
  have hw := logicalWrites_of_none (S.writes s.params.cat) n hpre hn ((SessionShape.pre_transport S s).symm ▸ hu) hf
  rw [S.exec_eq, sessionOperation, if_pos hv, hw]
  rfl

theorem groupTotal_initializeWrites (cat : Catalog) (rotation : Nat) (inverse : Bool) (contrast ratio : Nat) :
    groupTotal (initializeWrites cat rotation inverse contrast ratio) = 2 := by
  simp [groupTotal, initializeWrites, initializeList, groupCount]

theorem groupTotal_refreshWrites (cat : Catalog) (fb : List Byte) :
    groupTotal (refreshWrites cat fb) = 1 + groupCount fb.length + 1 := by
  simp [groupTotal, refreshWrites, columnPair, Nat.add_assoc, groupCount]

/-- Settles O21: the groups of a payload, of the nine commands (two) and of the three writes of refresh are counted
through, and the operation is stuck on the one that is never answered. -/
theorem unansweredTransmitHasNoStep : Obligations.UnansweredTransmitHasNoStep := by
  intro s n u hp hu hf
  refine ⟨fun dc p hn => ?_, fun rotation inverse contrast ratio hv hn => ?_, fun fb hv hn => ?_⟩
  · rw [exec_write, logicalWrite_of_none dc p n hp hn hu hf, Ran.finish_unanswered]
  · refine exec_session_of_none (sessionShape (.sessionInitialize rotation inverse contrast ratio) rfl) n ?_ hp ?_ hu hf
    · rcases hv with hv | hv <;> simp [hv, sessionShape, validIn]
    · exact (groupTotal_initializeWrites s.params.cat rotation inverse contrast ratio).symm ▸ hn
  · refine exec_session_of_none (sessionShape (.refresh fb) rfl) n ?_ hp ?_ hu hf
    · simp [hv, sessionShape, validIn]
    · exact (groupTotal_refreshWrites s.params.cat fb).symm ▸ hn

end Sys2Proof.Machine
end

