-- ==== Sys2Proof/Proofs/Encoding.lean ====
section
/-! SUPPORT. The ports and their decoder (R88, R89), the command bytes and their reading back (R81, R82, R94), and the
closed formulas of a wire group (R86, R87). -/

namespace Sys2Proof

/-! ### The framer port (R89) -/

section
variable (st : BitVec 3) (dc : Bool) (d : Byte)

theorem framerWord_getLsbD (j : Nat) : (framerWord st dc d).getLsbD j =
    if j < 8 then d.getLsbD j else if j - 8 < 1 then (BitVec.ofBool dc).getLsbD (j - 8) else st.getLsbD (j - 8 - 1) :=
  BitVec.getLsbD_append.trans (by rw [BitVec.getLsbD_append])

@[simp] theorem framerWord_begin : (framerWord st dc d)[11] = st[2] := framerWord_getLsbD st dc d 11
@[simp] theorem framerWord_byte : (framerWord st dc d)[10] = st[1] := framerWord_getLsbD st dc d 10
@[simp] theorem framerWord_end : (framerWord st dc d)[9] = st[0] := framerWord_getLsbD st dc d 9
@[simp] theorem framerWord_dc : (framerWord st dc d)[8] = dc :=
  (framerWord_getLsbD st dc d 8).trans (by simp)
@[simp] theorem framerWord_data : (framerWord st dc d).extractLsb' 0 8 = d := BitVec.extractLsb'_append_eq_right

theorem decodeFramer_begin : decodeFramer (framerWord 0b100 dc d) = .operation (.beginWrite dc) := by
  simp [decodeFramer]

theorem decodeFramer_byte : decodeFramer (framerWord 0b010 dc d) = .operation (.byte d) := by
  simp [decodeFramer]

theorem decodeFramer_end : decodeFramer (framerWord 0b001 dc d) = .operation .endWrite := by
  simp [decodeFramer]

/-- A mask acts on each field of a framer word by itself. -/
theorem framerWord_and (st' : BitVec 3) (dc' : Bool) (d' : Byte) :
    framerWord st dc d &&& framerWord st' dc' d' = framerWord (st &&& st') (dc && dc') (d &&& d') := by
  refine BitVec.and_append.trans ?_
  rw [BitVec.and_append, BitVec.ofBool_and_ofBool]
  rfl

end

/-- A framer word is made of its strobes, its selector and its byte. -/
theorem eq_framerWord {fp : BitVec 12} {st : BitVec 3} (hb : fp.getLsbD 11 = st[2]) (hy : fp.getLsbD 10 = st[1])
    (he : fp.getLsbD 9 = st[0]) : fp = framerWord st (fp.getLsbD 8) (fp.extractLsb' 0 8) := by
  refine BitVec.eq_of_getLsbD_eq fun j hj => ?_
  rw [framerWord_getLsbD]
  split_ifs with hdata hdc
  · simp [hdata]
  · obtain rfl : j = 8 := by omega
    simp
  · have hj : j = 9 ∨ j = 10 ∨ j = 11 := by omega
    rcases hj with rfl | rfl | rfl
    · exact he
    · exact hy
    · exact hb

/-- The port presents an operation exactly when one strobe is set; which one decides the operation. -/
theorem decodeFramer_operation {fp : BitVec 12} {i : Instr} (h : decodeFramer fp = .operation i) :
    ∃ dc d, (fp = framerWord 0b100 dc d ∧ i = .beginWrite dc) ∨ (fp = framerWord 0b010 dc d ∧ i = .byte d) ∨
      (fp = framerWord 0b001 dc d ∧ i = .endWrite) := by
  unfold decodeFramer at h
  split at h
  next hb hy he => exact ⟨_, _, .inl ⟨eq_framerWord hb hy he, (Decoded.operation.inj h).symm⟩⟩
  next hb hy he => exact ⟨_, _, .inr (.inl ⟨eq_framerWord hb hy he, (Decoded.operation.inj h).symm⟩)⟩
  next hb hy he => exact ⟨_, _, .inr (.inr ⟨eq_framerWord hb hy he, (Decoded.operation.inj h).symm⟩)⟩
  next => cases h
  next => cases h

/-- Settles O54: a framer word carries its strobe, selector and byte in separate fields, and the other operations have
an index of their own or go by name. -/
theorem decodeOfEncodeIsIdentity : Obligations.DecodeOfEncodeIsIdentity := by
  intro i
  cases i with
  | beginWrite dc => exact decodeFramer_begin dc 0
  | byte d => exact decodeFramer_byte false d
  | endWrite => exact decodeFramer_end false 0
  | _ => rfl

/-- Settles O55: each mask keeps the strobes and the fields its operation reads, and clears the others. -/
theorem framerWordsDifferOnlyInIgnoredBits : Obligations.FramerWordsDifferOnlyInIgnoredBits := by
  intro fp i h
  obtain ⟨dc, d, ⟨rfl, rfl⟩ | ⟨rfl, rfl⟩ | ⟨rfl, rfl⟩⟩ := decodeFramer_operation h
  · refine .inl ⟨?_, dc, rfl⟩
    rw [show (0xF00 : BitVec 12) = framerWord 0b111 true 0 from rfl, framerWord_and, Bool.and_true,
      show d &&& 0 = 0 from BitVec.and_zero]
    rfl
  · refine .inr (.inl ⟨?_, d, rfl⟩)
    rw [show (0xEFF : BitVec 12) = framerWord 0b111 false 0xFF from rfl, framerWord_and, Bool.and_false,
      show d &&& 0xFF = d from BitVec.and_allOnes]
    rfl
  · refine .inr (.inr ⟨?_, rfl⟩)
    rw [show (0xE00 : BitVec 12) = framerWord 0b111 false 0 from rfl, framerWord_and, Bool.and_false,
      show d &&& 0 = 0 from BitVec.and_zero]
    rfl

end Sys2Proof

namespace Sys2Proof.Machine

open Sys2Proof.Claims

/-! ### Masked parameters (R82, R91) -/

/-- Bits that the mask clears do not reach the field. -/
theorem mod_and_of_lt {mask k : Nat} (h : mask < 2 ^ k) (p : Nat) : p % 2 ^ k &&& mask = p &&& mask := by
  calc p % 2 ^ k &&& mask = p % 2 ^ k &&& mask % 2 ^ k := by rw [Nat.mod_eq_of_lt h]
    _ = (p &&& mask) % 2 ^ k := Nat.and_mod_two_pow.symm
    _ = p &&& mask := Nat.mod_eq_of_lt (Nat.lt_of_le_of_lt Nat.and_le_right h)

theorem fieldCommand_mod (base : Byte) {mask k : Nat} (h : mask < 2 ^ k) (p : Nat) :
    fieldCommand base mask (p % 2 ^ k) = fieldCommand base mask p := by
  rw [fieldCommand, mod_and_of_lt h, fieldCommand]

theorem columnHigh_mod (c k : Nat) : columnHigh (c % 2 ^ (4 + k)) = columnHigh c % 2 ^ k := by
  simp only [columnHigh, Nat.shiftRight_eq_div_pow, Nat.pow_add, Nat.mod_mul_right_div_self]

section
variable (cat : Catalog) (p : Nat) {k : Nat}

/-! A parameter cut to at least the bits of its field gives the same byte (R95). -/

theorem byteRatio_mod (h : 0x07 < 2 ^ k) : byteRatio cat (p % 2 ^ k) = byteRatio cat p := fieldCommand_mod _ h p
theorem byteEv_mod (h : 0x1F < 2 ^ k) : byteEv cat (p % 2 ^ k) = byteEv cat p := fieldCommand_mod _ h p
theorem bytePage_mod (h : 0x0F < 2 ^ k) : bytePage cat (p % 2 ^ k) = bytePage cat p := fieldCommand_mod _ h p
theorem byteCollsb_mod (h : 0x0F < 2 ^ k) : byteCollsb cat (p % 2 ^ k) = byteCollsb cat p := fieldCommand_mod _ h p
theorem byteStartline_mod (h : 0x3F < 2 ^ k) : byteStartline cat (p % 2 ^ k) = byteStartline cat p :=
  fieldCommand_mod _ h p
theorem byteColmsb_mod (h : 0x07 < 2 ^ k) : byteColmsb cat (p % 2 ^ (4 + k)) = byteColmsb cat p := by
  rw [byteColmsb, columnHigh_mod, fieldCommand_mod _ h, byteColmsb]

end

theorem fieldCommand_getLsbD (base : Byte) (w p j : Nat) : (fieldCommand base (2 ^ w - 1) p).getLsbD j =
    (base.getLsbD j || (decide (j < 8) && (p.testBit j && decide (j < w)))) := by
  rw [fieldCommand, BitVec.getLsbD_or, BitVec.getLsbD_ofNat, Nat.testBit_and, Nat.testBit_two_pow_sub_one]

/-- Over a base that is clear of the field, the command byte has the parameter's low bits in the field and the base above
it (R82). -/
theorem fieldCommand_inserted {base : Byte} {w : Nat} (hw : w ≤ 8) (hbase : base &&& BitVec.ofNat 8 (2 ^ w - 1) = 0)
    (p : Nat) : FieldInserted base (fieldCommand base (2 ^ w - 1) p) w p := by
  constructor <;> refine BitVec.eq_of_getLsbD_eq fun j hj => ?_
  · have hj8 : j < 8 := Nat.lt_of_lt_of_le hj hw
    have hclear : base.getLsbD j = false := by
      have hbit : (base &&& BitVec.ofNat 8 (2 ^ w - 1)).getLsbD j = false := by simp [hbase]
      rwa [BitVec.getLsbD_and, BitVec.getLsbD_ofNat, Nat.testBit_two_pow_sub_one, decide_eq_true hj, decide_eq_true hj8,
        Bool.and_true, Bool.and_true] at hbit
    rw [BitVec.getLsbD_extractLsb', Nat.zero_add, fieldCommand_getLsbD, BitVec.getLsbD_ofNat]
    simp only [hclear, hj, hj8, decide_true, Bool.true_and, Bool.and_true, Bool.false_or]
  · have habove : ¬ w + j < w := by omega
    simp only [BitVec.getLsbD_extractLsb', fieldCommand_getLsbD, habove, decide_false, Bool.and_false, Bool.or_false]

theorem catalog_wf_iff (cat : Catalog) : cat.wf = true ↔
    cat.baseRatio &&& 0x07 = 0 ∧ cat.baseEv &&& 0x1F = 0 ∧ cat.baseStartline &&& 0x3F = 0 ∧ cat.basePage &&& 0x0F = 0 ∧
    cat.baseColMsb &&& 0x07 = 0 ∧ cat.baseColLsb &&& 0x0F = 0 := by
  simp [Catalog.wf, Catalog.bases]

/-! ### The encoder operations (R81, R82, R110) -/

/-- An operation with a command byte returns it and does nothing else. -/
theorem exec_of_commandByte {i : Instr} {s : State} {b : Byte} (h : commandByte s.params.cat i = some b) :
    exec i s = .next (returned s (.byte b)) := by
  cases i with
  | beginWrite | byte | endWrite | write => cases h
  | sessionReset | sessionInitialize | setContrast | setInversion | setRotation | sleep | refresh => cases h
  | _ => cases h; rfl

/-- Settles O1: the command byte of a fixed opcode is its catalog constant. -/
theorem fixedOpcodesReturnCatalogConstants : Obligations.FixedOpcodesReturnCatalogConstants := by
  intro s
  refine ⟨?_, ?_, ?_, ?_, ?_, ?_, ?_, ?_, ?_, ?_, ?_, ?_, ?_, ?_⟩ <;> exact exec_of_commandByte rfl

/-- Settles O2: each base is clear of the mask of its field, and the masks are those of 3, 5, 4, 3, 4 and 6 bits. -/
theorem fieldCommandsInsertTheMaskedParameter : Obligations.FieldCommandsInsertTheMaskedParameter := by
  intro s p
  refine ⟨_, _, _, _, _, _, exec_of_commandByte rfl, rfl, exec_of_commandByte rfl, rfl, exec_of_commandByte rfl, rfl,
    exec_of_commandByte rfl, rfl, exec_of_commandByte rfl, rfl, exec_of_commandByte rfl, rfl, fun hwf => ?_⟩
  obtain ⟨hratio, hev, hstart, hpage, hmsb, hlsb⟩ := (catalog_wf_iff _).1 hwf
  have hcol : p / 16 = columnHigh p := (Nat.shiftRight_eq_div_pow p 4).symm
  rw [hcol]
  exact ⟨fieldCommand_inserted (w := 3) (by omega) hratio p, fieldCommand_inserted (w := 5) (by omega) hev p,
    fieldCommand_inserted (w := 4) (by omega) hpage p, fieldCommand_inserted (w := 3) (by omega) hmsb (columnHigh p),
    fieldCommand_inserted (w := 4) (by omega) hlsb p, fieldCommand_inserted (w := 6) (by omega) hstart p⟩

/-- Encoder operations with the same command byte do the same. -/
theorem exec_eq_of_commandByte_eq {i j : Instr} {s : State} {b : Byte} (hi : commandByte s.params.cat i = some b)
    (hj : commandByte s.params.cat j = some b) : exec i s = exec j s :=
  (exec_of_commandByte hi).trans (exec_of_commandByte hj).symm

/-! ### Parameters outside their range (R93, R95) -/

theorem contrastField_mod (level : Nat) : contrastField (level % 32) = contrastField level :=
  congrArg (BitVec.ofNat 5) (mod_and_of_lt (k := 5) (by decide) level)

theorem ratioField_mod (r : Nat) : ratioField (r % 8) = ratioField r :=
  congrArg (BitVec.ofNat 3) (mod_and_of_lt (k := 3) (by decide) r)

/-- Cutting a rotation to 0 or 180 keeps whether it is 180 (R93). -/
theorem rotation_cut_eq_180_iff (rotation : Nat) : (if rotation = 180 then 180 else 0) = 180 ↔ rotation = 180 := by
  split_ifs with h <;> simp [h]

/-- Settles O6: an operand is used only through its command byte and, in the host layer, the field of `CFG` it is stored
in, and both see the operand cut. -/
theorem outOfRangeParametersActAsTruncated : Obligations.OutOfRangeParametersActAsTruncated := by
  intro s a b c flag
  have hev : ∀ level, byteEv s.params.cat (level % 32) = byteEv s.params.cat level := fun level =>
    byteEv_mod (k := 5) _ level (by decide)
  have hratio : ∀ r, byteRatio s.params.cat (r % 8) = byteRatio s.params.cat r := fun r =>
    byteRatio_mod (k := 3) _ r (by decide)
  refine ⟨?_, ?_, ?_, ?_, ?_, ?_, ?_, ?_, ?_⟩
  · exact exec_eq_of_commandByte_eq rfl (congrArg some (hratio a))
  · exact exec_eq_of_commandByte_eq rfl (congrArg some (hev a))
  · exact exec_eq_of_commandByte_eq rfl (congrArg some (bytePage_mod (k := 4) _ a (by decide)))
  · exact exec_eq_of_commandByte_eq rfl (congrArg some (byteColmsb_mod (k := 3) _ a (by decide)))
  · exact exec_eq_of_commandByte_eq rfl (congrArg some (byteCollsb_mod (k := 7) _ a (by decide)))
  · exact exec_eq_of_commandByte_eq rfl (congrArg some (byteStartline_mod (k := 6) _ a (by decide)))
  · simp only [exec, execSetContrast, contrastWrites, hev, contrastField_mod]
  · simp only [exec, execSetRotation, rotationWrites, byteSegment, byteCommon, rotationField, rotation_cut_eq_180_iff]
  · simp only [exec, execInitialize, initializeWrites, initializeList, hev, hratio, byteSegment, byteCommon,
      rotationField, contrastField_mod, ratioField_mod, rotation_cut_eq_180_iff]

/-! ### The encoder port (R88) -/

/-- Index `e` of the port presents the operation `f n` for the parameter `n`: an encoder operation that the port word of
index `e` presents, whose byte the low eight bits of the parameter decide. -/
structure SelectsOperation (e : BitVec 5) (f : Nat → Instr) : Prop where
  decodes   : ∀ n, decodeEncoder e n = .operation (f n)
  encodes   : ∀ n, ∃ m, encode (f n) = .encoder e m
  eightBits : ∀ cat n, ∃ b, commandByte cat (f n) = some b ∧ commandByte cat (f (n % 256)) = some b

/-- A fixed opcode is presented whatever the parameter is. -/
theorem selectsOperation_fixed {e : BitVec 5} {i : Instr} (hd : ∀ n, decodeEncoder e n = .operation i)
    (he : encode i = .encoder e 0) (hb : ∀ cat, ∃ b, commandByte cat i = some b) : SelectsOperation e fun _ => i where
  decodes := hd
  encodes _ := ⟨0, he⟩
  eightBits cat _ := (hb cat).imp fun _ h => ⟨h, h⟩

/-- A field command takes the parameter as its operand. -/
theorem selectsOperation_field {e : BitVec 5} {f : Nat → Instr} {byte : Catalog → Nat → Byte}
    (hd : ∀ n, decodeEncoder e n = .operation (f n)) (he : ∀ n, encode (f n) = .encoder e n)
    (hb : ∀ cat n, commandByte cat (f n) = some (byte cat n)) (hmod : ∀ cat n, byte cat (n % 2 ^ 8) = byte cat n) :
    SelectsOperation e f where
  decodes := hd
  encodes n := ⟨n, he n⟩
  eightBits cat n := ⟨byte cat n, hb cat n, (hb cat _).trans (congrArg some (hmod cat n))⟩

/-- The table of R88: fourteen fixed opcodes, then six field commands. -/
theorem exists_selectsOperation {e : BitVec 5} (h : e.toNat < 20) : ∃ f, SelectsOperation e f := by
  obtain ⟨k, rfl, hk⟩ : ∃ k : Nat, e = BitVec.ofNat 5 k ∧ k < 20 := ⟨e.toNat, by simp, h⟩
  clear h
  by_cases hfixed : k < 14
  · interval_cases k <;> exact ⟨_, selectsOperation_fixed (fun _ => rfl) rfl fun _ => ⟨_, rfl⟩⟩
  · have hfield : k = 14 ∨ k = 15 ∨ k = 16 ∨ k = 17 ∨ k = 18 ∨ k = 19 := by omega
    rcases hfield with rfl | rfl | rfl | rfl | rfl | rfl
    all_goals refine ⟨_, selectsOperation_field (fun _ => rfl) (fun _ => rfl) (fun _ _ => rfl) fun cat n => ?_⟩
    · exact byteRatio_mod cat n (by decide)
    · exact byteEv_mod cat n (by decide)
    · exact bytePage_mod cat n (by decide)
    · exact byteColmsb_mod (k := 4) cat n (by decide)
    · exact byteCollsb_mod cat n (by decide)
    · exact byteStartline_mod cat n (by decide)

theorem decodeEncoder_unassigned {e : BitVec 5} (h : 20 ≤ e.toNat) (n : Nat) :
    decodeEncoder e n = .unassigned (.encoderIndex e) := by
  unfold decodeEncoder
  split
  case h_21 => rfl
  all_goals omega

/-- The port presents an operation only at an assigned index. -/
theorem exists_selectsOperation_of_decodes {e : BitVec 5} {n : Nat} {i : Instr}
    (h : decodeEncoder e n = .operation i) : ∃ f, SelectsOperation e f ∧ f n = i := by
  have hlt : e.toNat < 20 := by
    by_contra hge
    cases h.symm.trans (decodeEncoder_unassigned (Nat.le_of_not_lt hge) n)
  obtain ⟨f, hf⟩ := exists_selectsOperation hlt
  exact ⟨f, hf, Decoded.operation.inj ((hf.decodes n).symm.trans h)⟩

/-- Settles O5: the command byte is all an encoder operation does with its parameter. -/
theorem encoderPortNeedsOnlyEightParameterBits : Obligations.EncoderPortNeedsOnlyEightParameterBits := by
  intro e n s i j hi hj
  obtain ⟨f, hf, rfl⟩ := exists_selectsOperation_of_decodes hi
  obtain rfl : f (n % 256) = j := Decoded.operation.inj ((hf.decodes _).symm.trans hj)
  obtain ⟨b, hb, hb'⟩ := hf.eightBits s.params.cat n
  exact exec_eq_of_commandByte_eq hb hb'

/-- Settles O56: an operation is presented at the index of its own port word, so at one index only. -/
theorem encoderIndexSelectsTwentyOperations : Obligations.EncoderIndexSelectsTwentyOperations := by
  refine ⟨fun n => ?_, fun e n => ⟨fun hlt => ?_, fun hge => decodeEncoder_unassigned hge n⟩, fun e e' n n' i h h' => ?_⟩
  · exact ⟨rfl, rfl, rfl, rfl, rfl, rfl, rfl, rfl, rfl, rfl, rfl, rfl, rfl, rfl, rfl, rfl, rfl, rfl, rfl, rfl⟩
  · obtain ⟨f, hf⟩ := exists_selectsOperation hlt
    obtain ⟨b, hb, -⟩ := hf.eightBits defaultCatalog n
    exact ⟨f n, hf.decodes n, by simp [isEncoderOp, hb]⟩
  · obtain ⟨f, hf, rfl⟩ := exists_selectsOperation_of_decodes h
    obtain ⟨f', hf', heq⟩ := exists_selectsOperation_of_decodes h'
    obtain ⟨m, hm⟩ := hf.encodes n
    obtain ⟨m', hm'⟩ := hf'.encodes n'
    rw [heq, hm] at hm'
    exact (PortWord.encoder.inj hm').1

end Sys2Proof.Machine

namespace Sys2Proof

open Sys2Proof.Machine

/-! ### Reading command bytes back (R94, log entry 12) -/

/-- `b` is the command byte of row `r` with the field `f`, which lies outside the row's mask. -/
def CommandRow.Gives (r : CommandRow) (f b : Byte) : Prop := f &&& r.mask = 0 ∧ b = r.base ||| f

/-- The operation that row `r` builds from a field has the row's byte with that field. -/
def CommandRow.Sound (cat : Catalog) (r : CommandRow) : Prop :=
  ∀ f b, r.Gives f b → commandByte cat (r.build f.toNat) = some b

theorem or_and_not_mask (b mask : Byte) : (b &&& mask) ||| (b &&& ~~~mask) = b := by
  rw [← BitVec.and_or_distrib_left, BitVec.or_not_self, BitVec.and_allOnes]

theorem and_not_mask_and (b mask : Byte) : (b &&& ~~~mask) &&& mask = 0 := by
  rw [BitVec.and_assoc, BitVec.not_and_self]
  exact BitVec.and_zero

theorem and_eq_self_of_clear {b mask : Byte} (h : b &&& ~~~mask = 0) : b &&& mask = b := by
  have hb := or_and_not_mask b mask
  rw [h] at hb
  exact BitVec.or_zero.symm.trans hb

theorem CommandRow.sound_fixed {cat : Catalog} {base : Byte} {i : Instr} (h : commandByte cat i = some base) :
    CommandRow.Sound cat ⟨0xFF, base, fun _ => i⟩ := by
  rintro f b ⟨hf, rfl⟩
  obtain rfl : f = 0 := BitVec.and_allOnes.symm.trans hf
  exact h.trans (congrArg some BitVec.or_zero.symm)

theorem CommandRow.sound_field {cat : Catalog} {base : Byte} {mask : Nat} {build : Nat → Instr}
    (h : ∀ f, commandByte cat (build f) = some (fieldCommand base mask f)) :
    CommandRow.Sound cat ⟨~~~BitVec.ofNat 8 mask, base, build⟩ := by
  rintro f b ⟨hf, rfl⟩
  have hfield : BitVec.ofNat 8 (f.toNat &&& mask) = f := by
    rw [BitVec.ofNat_and, BitVec.ofNat_toNat, BitVec.setWidth_eq, and_eq_self_of_clear hf]
  rw [h, fieldCommand, hfield]

theorem columnHigh_mul (f : Nat) : columnHigh (16 * f) = f :=
  (Nat.shiftRight_eq_div_pow _ 4).trans (Nat.mul_div_cancel_left f (by decide))

theorem commandRows_sound (cat : Catalog) : ∀ r ∈ commandRows cat, r.Sound cat := by
  have hcol : ∀ f, commandByte cat (.colmsb (16 * f)) = some (fieldCommand cat.baseColMsb 0x07 f) := fun f => by
    rw [commandByte, byteColmsb, columnHigh_mul]
  rw [commandRows, List.forall_mem_append]
  constructor
  · simp only [List.forall_mem_cons, List.not_mem_nil, false_imp_iff, forall_true_iff, and_true]
    refine ⟨?_, ?_, ?_, ?_, ?_, ?_, ?_, ?_, ?_, ?_, ?_, ?_, ?_, ?_⟩ <;> exact CommandRow.sound_fixed rfl
  · simp only [List.forall_mem_cons, List.not_mem_nil, false_imp_iff, forall_true_iff, and_true]
    exact ⟨CommandRow.sound_field (mask := 0x07) fun _ => rfl, CommandRow.sound_field (mask := 0x1F) fun _ => rfl,
      CommandRow.sound_field (mask := 0x0F) fun _ => rfl, CommandRow.sound_field (mask := 0x07) hcol,
      CommandRow.sound_field (mask := 0x0F) fun _ => rfl, CommandRow.sound_field (mask := 0x3F) fun _ => rfl⟩

theorem commandRow_mem (cat : Catalog) {k : Nat} (h : k < 20) : (commandRows cat)[k]'h ∈ commandRows cat :=
  List.getElem_mem h

theorem gives_fieldCommand (base : Byte) (mask p : Nat) (build : Nat → Instr) :
    CommandRow.Gives ⟨~~~BitVec.ofNat 8 mask, base, build⟩ (BitVec.ofNat 8 (p &&& mask)) (fieldCommand base mask p) := by
  refine ⟨?_, rfl⟩
  rw [BitVec.ofNat_and, BitVec.and_assoc, BitVec.and_not_self]
  exact BitVec.and_zero

/-- Some row of the opcode map gives the byte. -/
def InCommandRows (cat : Catalog) (b : Byte) : Prop := ∃ r ∈ commandRows cat, ∃ f, r.Gives f b

theorem inCommandRows_fixed {cat : Catalog} {r : CommandRow} (h : r ∈ commandRows cat) : InCommandRows cat r.base :=
  ⟨r, h, 0, BitVec.zero_and, BitVec.or_zero.symm⟩

theorem inCommandRows_field {cat : Catalog} {base : Byte} {mask : Nat} {build : Nat → Instr}
    (h : ⟨~~~BitVec.ofNat 8 mask, base, build⟩ ∈ commandRows cat) (p : Nat) :
    InCommandRows cat (fieldCommand base mask p) :=
  ⟨_, h, _, gives_fieldCommand base mask p build⟩

theorem inCommandRows_of_commandByte {cat : Catalog} {i : Instr} {b : Byte} (h : commandByte cat i = some b) :
    InCommandRows cat b := by
  have hfixed : ⟨0xFF, b, fun _ => i⟩ ∈ commandRows cat → InCommandRows cat b := inCommandRows_fixed
  cases i with
  | beginWrite | byte | endWrite | write => cases h
  | sessionReset | sessionInitialize | setContrast | setInversion | setRotation | sleep | refresh => cases h
  | ratio p => cases h; exact inCommandRows_field (commandRow_mem cat (k := 14) (by decide)) p
  | ev p => cases h; exact inCommandRows_field (commandRow_mem cat (k := 15) (by decide)) p
  | page p => cases h; exact inCommandRows_field (commandRow_mem cat (k := 16) (by decide)) p
  | colmsb p => cases h; exact inCommandRows_field (commandRow_mem cat (k := 17) (by decide)) (columnHigh p)
  | collsb p => cases h; exact inCommandRows_field (commandRow_mem cat (k := 18) (by decide)) p
  | startline p => cases h; exact inCommandRows_field (commandRow_mem cat (k := 19) (by decide)) p
  | _ => cases h; exact hfixed (by simp [commandRows, byteDispon, byteDispoff, byteVidnorm, byteVidinv, byteAllnorm, byteAllon,
      byteSegnorm, byteSegrev, byteComnorm, byteComrev, bytePwron, bytePwroff, byteSwreset, byteNop])

/-! The rows of the default catalog are disjoint, so each of its command bytes reads back by its own row. -/

theorem defaultRows_disjoint :
    (commandRows defaultCatalog).Pairwise fun r r' => r.base &&& r'.mask ≠ r'.base &&& r.mask := by
  decide

theorem defaultRows_base_clear : ∀ r ∈ commandRows defaultCatalog, r.base &&& ~~~r.mask = 0 := by decide

theorem filter_length_le_one {α : Type} {R : α → α → Prop} {p : α → Bool} {l : List α} (h : l.Pairwise R)
    (hp : ∀ x y, p x = true → p y = true → ¬ R x y) : (l.filter p).length ≤ 1 := by
  have hpair := h.filter p
  have hmem : ∀ x ∈ l.filter p, p x = true := fun x hx => (List.mem_filter.1 hx).2
  match l.filter p, hpair, hmem with
  | [], _, _ => exact Nat.zero_le 1
  | [_], _, _ => exact Nat.le_refl 1
  | x :: y :: _, hpair, hmem =>
    exact absurd (List.rel_of_pairwise_cons hpair (by simp)) (hp x y (hmem x (by simp)) (hmem y (by simp)))

/-- A byte of two rows would have both bases where both masks look. -/
theorem defaultRows_filter_length (b : Byte) :
    ((commandRows defaultCatalog).filter fun r => b &&& r.mask == r.base).length ≤ 1 := by
  refine filter_length_le_one defaultRows_disjoint fun r r' hr hr' hne => hne ?_
  rw [← beq_iff_eq.1 hr, ← beq_iff_eq.1 hr', BitVec.and_assoc, BitVec.and_assoc, BitVec.and_comm r.mask]

theorem readCommandByte_of_gives {r : CommandRow} (hr : r ∈ commandRows defaultCatalog) {f b : Byte}
    (h : r.Gives f b) : readCommandByte defaultCatalog b = some (r.build f.toNat) := by
  obtain ⟨hf, rfl⟩ := h
  have hclear := defaultRows_base_clear r hr
  have hbase : (r.base ||| f) &&& r.mask = r.base := by
    rw [BitVec.and_or_distrib_right, hf, and_eq_self_of_clear hclear]
    exact BitVec.or_zero
  have hfield : (r.base ||| f) &&& ~~~r.mask = f := by
    rw [BitVec.and_or_distrib_right, hclear, and_eq_self_of_clear (mask := ~~~r.mask) (by rwa [BitVec.not_not])]
    exact BitVec.zero_or
  have hmem : r ∈ (commandRows defaultCatalog).filter fun r' => (r.base ||| f) &&& r'.mask == r'.base :=
    List.mem_filter.2 ⟨hr, beq_iff_eq.2 hbase⟩
  obtain ⟨r', hr'⟩ := List.length_eq_one_iff.1
    (Nat.le_antisymm (defaultRows_filter_length _) (List.length_pos_of_mem hmem))
  obtain rfl : r = r' := List.mem_singleton.1 (hr' ▸ hmem)
  rw [readCommandByte, ← List.head?_filter, hr']
  exact congrArg (fun f => some (r.build f.toNat)) hfield

theorem readCommandByte_fieldCommand {base : Byte} {w : Nat} {build : Nat → Instr} (hw : w ≤ 8)
    (hr : ⟨~~~BitVec.ofNat 8 (2 ^ w - 1), base, build⟩ ∈ commandRows defaultCatalog) {p : Nat} (hp : p < 2 ^ w) :
    readCommandByte defaultCatalog (fieldCommand base (2 ^ w - 1) p) = some (build p) := by
  have hp8 : p < 2 ^ 8 := Nat.lt_of_lt_of_le hp (Nat.pow_le_pow_right (by decide) hw)
  rw [readCommandByte_of_gives hr (gives_fieldCommand base _ p build), Nat.and_two_pow_sub_one_of_lt_two_pow hp,
    BitVec.toNat_ofNat, Nat.mod_eq_of_lt hp8]

theorem commandByte_of_readCommandByte {cat : Catalog} {b : Byte} {i : Instr} (h : readCommandByte cat b = some i) :
    commandByte cat i = some b := by
  obtain ⟨r, hr, rfl⟩ := Option.map_eq_some_iff.1 h
  have hbase : b &&& r.mask = r.base := by simpa using List.find?_some hr
  exact commandRows_sound cat r (List.mem_of_find?_eq_some hr) _ b
    ⟨and_not_mask_and b r.mask, by rw [← hbase, or_and_not_mask]⟩

/-- Settles O57: a command byte is the byte of one row, and its operation is built from that row and the field. -/
theorem commandBytesReadBack : Obligations.CommandBytesReadBack := by
  refine ⟨defaultRows_filter_length, by decide, fun b i => commandByte_of_readCommandByte, fun i b h => ?_,
    fun r c p k l n hr hc hp hk hl hn => ⟨?_, ?_, ?_, ?_, ?_, ?_⟩⟩
  · obtain ⟨r, hr, f, hf⟩ := inCommandRows_of_commandByte h
    exact ⟨_, readCommandByte_of_gives hr hf, commandRows_sound _ r hr f b hf⟩
  · exact readCommandByte_fieldCommand (w := 3) (by decide) (commandRow_mem _ (k := 14) (by decide)) hr
  · exact readCommandByte_fieldCommand (w := 5) (by decide) (commandRow_mem _ (k := 15) (by decide)) hc
  · exact readCommandByte_fieldCommand (w := 4) (by decide) (commandRow_mem _ (k := 16) (by decide)) hp
  · rw [commandByte, byteColmsb, columnHigh_mul]
    exact readCommandByte_fieldCommand (w := 3) (by decide) (commandRow_mem _ (k := 17) (by decide)) hk
  · exact readCommandByte_fieldCommand (w := 4) (by decide) (commandRow_mem _ (k := 18) (by decide)) hl
  · exact readCommandByte_fieldCommand (w := 6) (by decide) (commandRow_mem _ (k := 19) (by decide)) hn

/-- Settles O58: each word's bits select the operation written beside it. -/
theorem sampleWordsDecode : Obligations.SampleWordsDecode := by
  unfold Obligations.SampleWordsDecode
  decide

end Sys2Proof

namespace Sys2Proof.Machine

/-! ### The wire group bit by bit (R86, R87) -/

/-- The selector bit of byte `k` is bit `9k` of the tagged bytes (R85). -/
theorem taggedBits_getElem?_selector (dc : Bool) (chunk : Chunk) (k : Fin 8) :
    (taggedBits dc chunk)[9 * k.val]? = some dc := by
  have hbits := getElem?_flatMap_of_length (f := fun c => dc :: bitsMsbFirst c) (w := 9) (by simp) chunk.toList k.val
    (j := 0) (by omega)
  rw [taggedBits, ← Nat.add_zero (9 * k.val), hbits, List.getElem?_eq_getElem (by simp), Option.bind_some,
    List.getElem?_cons_zero]

/-- The selector bit of byte `k` is wire bit `9k` of its group (R86). -/
theorem packGroup_wire_selector (dc : Bool) (chunk : Chunk) (k : Fin 8) :
    ((packGroup dc chunk).toList.getD (9 * k.val / 8) 0).getLsbD (7 - 9 * k.val % 8) = dc := by
  have hwire := wireBits_getElem? (packGroup dc chunk) (n := 9 * k.val) (by omega)
  rw [wireBits_packGroup, taggedBits_getElem?_selector] at hwire
  exact (Option.some.inj hwire).symm

/-- Settles O9: the wire carries the tagged bytes end to end, nine bits each. -/
theorem wireGroupBitMap : Obligations.WireGroupBitMap :=
  fun dc chunk k j => ⟨packGroup_wire_bit dc chunk k j, packGroup_wire_selector dc chunk k⟩

/-- Wire bit `9i` is bit `7 - i` of octet `i`. -/
theorem packGroup_selector_bit (dc : Bool) (chunk : Chunk) (i : Fin 8) :
    (packGroup dc chunk)[i.val].getLsbD (7 - i.val) = dc := by
  have hdiv : 9 * i.val / 8 = i.val := by omega
  have hmod : 9 * i.val % 8 = i.val := by omega
  have hwire := packGroup_wire_selector dc chunk i
  rw [hdiv, hmod, List.getD_eq_getElem _ _ (by simp; omega), Vector.getElem_toList] at hwire
  exact hwire

/-- On a byte the shift that R87 cuts to 8 bits is the truncating one. -/
theorem ofNat_shiftLeft_and (b : Byte) (n : Nat) : BitVec.ofNat 8 ((b.toNat <<< n) &&& 0xFF) = b <<< n := by
  refine BitVec.eq_of_toNat_eq ?_
  rw [BitVec.toNat_shiftLeft, BitVec.toNat_ofNat, Nat.and_two_pow_sub_one_eq_mod _ 8, Nat.mod_mod]

/-- A byte shifted left by `m` shares no bit with one that ends below bit `m`. -/
theorem shiftLeft_and_eq_zero (a : Byte) {y : Byte} {m : Nat} (hy : ∀ j, m ≤ j → y.getLsbD j = false) :
    a <<< m &&& y = 0 := by
  refine BitVec.eq_of_getLsbD_eq fun j hj => ?_
  by_cases hm : j < m
  · simp [hm]
  · simp [hy j (by omega)]

theorem selectorByte_shiftLeft_getLsbD (dc : Bool) {n j : Nat} (h : n < j) :
    (selectorByte dc <<< n).getLsbD j = false := by
  have hne : j - n ≠ 0 := by omega
  simp [selectorByte_getLsbD, hne]

theorem ushiftRight_getLsbD_of_le (b : Byte) {n j : Nat} (h : 8 ≤ n + j) : (b >>> n).getLsbD j = false := by
  rw [BitVec.getLsbD_ushiftRight]
  exact BitVec.getLsbD_of_ge b _ h

/-- Octet `k + 1` ends byte `k`, carries a selector bit and begins byte `k + 1`. -/
theorem packGroup_middle (dc : Bool) (chunk : Chunk) {k : Nat} (h : k < 7) : (packGroup dc chunk)[k + 1] =
    chunk[k] <<< (7 - k) ||| selectorByte dc <<< (6 - k) ||| chunk[k + 1] >>> (k + 2) := by
  have hclosed : (packGroup dc chunk)[k + 1] = chunk[k] <<< (8 - (k + 1)) ||| selectorByte dc <<< (7 - (k + 1)) |||
      chunk[k + 1] >>> (k + 1 + 1) := by
    simpa [closedOctet, h, Fin.ext_iff] using packGroup_getElem dc chunk ⟨k + 1, by omega⟩
  rwa [Nat.add_sub_add_right 7 1, Nat.add_sub_add_right 6 1] at hclosed

/-- Settles O7: in a middle octet the end of one byte lies above the selector bit, and the next byte begins below it. -/
theorem packGroupMatchesClosedFormulas : Obligations.PackGroupMatchesClosedFormulas := by
  rintro dc chunk out rfl
  refine ⟨?_, fun k => ⟨?_, ?_, ?_, ?_⟩, packGroup_last dc chunk, packGroup_selector_bit dc chunk⟩
  · exact packGroup_getElem dc chunk 0
  · rw [ofNat_shiftLeft_and]
    exact packGroup_middle dc chunk k.isLt
  · exact shiftLeft_and_eq_zero _ fun j hj => selectorByte_shiftLeft_getLsbD dc (by omega)
  · exact shiftLeft_and_eq_zero _ fun j hj => ushiftRight_getLsbD_of_le _ (by omega)
  · exact shiftLeft_and_eq_zero _ fun j hj => ushiftRight_getLsbD_of_le _ (by omega)

end Sys2Proof.Machine
end

namespace Sys2Proof

open Sys2Proof.Machine

/-! ### What a command byte gives back (R132) -/

section
variable {r : CommandRow} {f b : Byte}

theorem CommandRow.Gives.and_mask (h : r.Gives f b) (hclear : r.base &&& ~~~r.mask = 0) : b &&& r.mask = r.base := by
  obtain ⟨hf, rfl⟩ := h
  rw [BitVec.and_or_distrib_right, hf, and_eq_self_of_clear hclear]
  exact BitVec.or_zero

theorem CommandRow.Gives.and_not_mask (h : r.Gives f b) (hclear : r.base &&& ~~~r.mask = 0) : b &&& ~~~r.mask = f := by
  obtain ⟨hf, rfl⟩ := h
  rw [BitVec.and_or_distrib_right, hclear, and_eq_self_of_clear (mask := ~~~r.mask) (by rwa [BitVec.not_not])]
  exact BitVec.zero_or

end

/-- Over a base that is clear of the field, the byte of a field command holds the masked parameter under the mask and the
base outside it. -/
theorem commandByte_and_mask {cat : Catalog} {i : Instr} {base : Byte} {mask p : Nat}
    (hi : commandByte cat i = some (fieldCommand base mask p)) (hbase : base &&& BitVec.ofNat 8 mask = 0) (b : Byte)
    (hb : commandByte cat i = some b) :
    b &&& BitVec.ofNat 8 mask = BitVec.ofNat 8 (p &&& mask) ∧ b &&& ~~~BitVec.ofNat 8 mask = base := by
  obtain rfl : fieldCommand base mask p = b := Option.some.inj (hi.symm.trans hb)
  have hgives := gives_fieldCommand base mask p fun _ => i
  have hclear : base &&& ~~~~~~BitVec.ofNat 8 mask = 0 := by rwa [BitVec.not_not]
  have hfield := hgives.and_not_mask hclear
  rw [BitVec.not_not] at hfield
  exact ⟨hfield, hgives.and_mask hclear⟩

/-- A byte that only sees the parameter modulo `m` is the same for a parameter `m * q` further on. -/
theorem some_byte_add_mul {byte : Nat → Byte} {m : Nat} (h : ∀ p, byte (p % m) = byte p) (p q : Nat) :
    some (byte p) = some (byte (p + m * q)) := by
  rw [← h (p + m * q), Nat.add_mul_mod_self_left, h]

/-- Settles O3: the base and the masked parameter share no bit, and a multiple of the field's size leaves the masked
parameter alone; for COLMSB the field begins at bit 4 of the column, so that size is 128. -/
theorem fieldIsRecoveredFromCommandByte : Obligations.FieldIsRecoveredFromCommandByte := by
  intro cat p hwf
  obtain ⟨hratio, hev, hstart, hpage, hmsb, hlsb⟩ := (catalog_wf_iff cat).1 hwf
  refine ⟨commandByte_and_mask rfl hratio, commandByte_and_mask rfl hev, commandByte_and_mask rfl hpage,
    commandByte_and_mask rfl hmsb, commandByte_and_mask rfl hlsb, commandByte_and_mask rfl hstart,
    fun q => ⟨?_, ?_, ?_, ?_, ?_, ?_⟩⟩
  · exact some_byte_add_mul (fun n => byteRatio_mod (k := 3) cat n (by decide)) p q
  · exact some_byte_add_mul (fun n => byteEv_mod (k := 5) cat n (by decide)) p q
  · exact some_byte_add_mul (fun n => bytePage_mod (k := 4) cat n (by decide)) p q
  · exact some_byte_add_mul (fun n => byteColmsb_mod (k := 3) cat n (by decide)) p q
  · exact some_byte_add_mul (fun n => byteCollsb_mod (k := 4) cat n (by decide)) p q
  · exact some_byte_add_mul (fun n => byteStartline_mod (k := 6) cat n (by decide)) p q

/-! ### The encoder operations are functions of the catalog (R110) -/

/-- Which operations have a command byte does not depend on the catalog. -/
theorem commandByte_isSome (cat : Catalog) (i : Instr) : (commandByte cat i).isSome = isEncoderOp i := by
  cases i <;> rfl

/-- Settles O4: the function is `commandByte`, which every encoder operation returns. -/
theorem encoderOperationsArePure : Obligations.EncoderOperationsArePure := by
  refine ⟨fun cat i => (commandByte cat i).getD 0, fun i s hi => exec_of_commandByte ?_⟩
  obtain ⟨b, hb⟩ := Option.isSome_iff_exists.1 ((commandByte_isSome s.params.cat i).trans hi)
  simp only [hb, Option.getD_some]

end Sys2Proof

namespace Sys2Proof.Machine

open Sys2Proof.Claims

/-! ### Groups of a frame and their unpacking (R152 to R163) -/

theorem frame_getElem? (filler : Byte) (dc : Bool) {p : List Byte} {g : Nat} (h : g < groupCount p.length) :
    (frame filler dc p)[g]? = some (packGroup dc (chunkOf filler p g)) := by
  simp [frame, h]

theorem chunkOf_getElem (filler : Byte) (p : List Byte) (g : Nat) (j : Fin 8) :
    (chunkOf filler p g)[j] = p.getD (8 * g + j.val) filler := by
  simp [chunkOf]

theorem unpackSelector_packGroup (dc : Bool) (chunk : Chunk) (i : Fin 8) :
    unpackSelector (packGroup dc chunk) i = dc :=
  packGroup_selector_bit dc chunk i

/-- The receiver reads bit `j` of byte `i` where the packer puts it (R86, R160). -/
theorem unpackByte_getLsbD (out : Octets) (i j : Fin 8) : (unpackByte out i).getLsbD j.val =
    (out.toList.getD ((9 * i.val + 8 - j.val) / 8) 0).getLsbD (7 - (9 * i.val + 8 - j.val) % 8) := by
  rw [unpackByte, BitVec.getLsbD_or, BitVec.getLsbD_shiftLeft, BitVec.getLsbD_ushiftRight]
  by_cases hij : j.val < i.val + 1
  · have hdiv : (9 * i.val + 8 - j.val) / 8 = i.val + 1 := by omega
    have hmod : 7 - (9 * i.val + 8 - j.val) % 8 = 7 - i.val + j.val := by omega
    rw [hdiv, hmod, List.getD_eq_getElem _ _ (by simp; omega), Vector.getElem_toList]
    simp [hij]
  · have hdiv : (9 * i.val + 8 - j.val) / 8 = i.val := by omega
    have hmod : 7 - (9 * i.val + 8 - j.val) % 8 = j.val - (i.val + 1) := by omega
    have hhigh : out[i.succ].getLsbD (7 - i.val + j.val) = false := BitVec.getLsbD_of_ge _ _ (by omega)
    rw [hdiv, hmod, hhigh, List.getD_eq_getElem _ _ (by simp; omega), Vector.getElem_toList]
    simp [hij]

theorem unpackByte_packGroup (dc : Bool) (chunk : Chunk) (i : Fin 8) : unpackByte (packGroup dc chunk) i = chunk[i] :=
  BitVec.eq_of_getLsbD_eq fun j hj =>
    (unpackByte_getLsbD _ i ⟨j, hj⟩).trans (packGroup_wire_bit dc chunk i ⟨j, hj⟩)

/-- Settles O10: every slot of a packed group unpacks to its selector and to its own byte. -/
theorem unpackInvertsPack : Obligations.UnpackInvertsPack := by
  refine ⟨fun dc chunk => Prod.ext ?_ ?_, ?_⟩
  · exact Vector.ext fun i hi => by simpa [unpackGroup] using unpackSelector_packGroup dc chunk ⟨i, hi⟩
  · exact Vector.ext fun i hi => by simpa [unpackGroup] using unpackByte_packGroup dc chunk ⟨i, hi⟩
  · rintro out i j hne dc chunk rfl
    exact hne ((unpackSelector_packGroup dc chunk i).trans (unpackSelector_packGroup dc chunk j).symm)

/-- Settles O11: each group has nine octets, and `groupCount` is the rounded quotient. -/
theorem frameLengthLaw : Obligations.FrameLengthLaw := by
  intro filler dc p
  refine ⟨?_, ?_, ?_, fun hp => hp ▸ frame_nil filler dc⟩
  · simp [List.length_flatMap, Nat.mul_comm]
  · simp only [groupCount]; omega
  · simp only [groupCount]; omega

/-- Settles O12: group `g` packs chunk `g`, whose slots hold the payload as far as it reaches. -/
theorem frameUnpacksToPaddedPayload : Obligations.FrameUnpacksToPaddedPayload := by
  intro filler dc p g hg
  refine ⟨_, frame_getElem? filler dc hg, fun j => ⟨unpackSelector_packGroup dc _ j, fun d hd => ?_, fun hle => ?_⟩⟩
  · rw [unpackByte_packGroup, chunkOf_getElem, List.getD_eq_getElem?_getD, hd, Option.getD_some]
  · rw [unpackByte_packGroup, chunkOf_getElem, List.getD_eq_default _ _ hle]

/-- Octet `n` reads byte `n - 1`, and byte `n` unless that is the last: all of its bits are in octet 8 (R87). -/
theorem closedOctet_set (dc : Bool) (c : Chunk) {k : Fin 8} (d : Byte) {n : Fin 9} (hsucc : n ≠ k.succ)
    (hcast : n ≠ k.castSucc ∨ k = 7) : closedOctet dc (c.set k d) n = closedOctet dc c n := by
  have hprev : n.val ≠ k.val + 1 := fun h => hsucc (Fin.ext h)
  have hown : n.val ≠ k.val ∨ k.val = 7 := hcast.imp (fun h e => h (Fin.ext e)) (congrArg Fin.val)
  unfold closedOctet
  split_ifs with hzero hle
  · have hn : n.val = 0 := congrArg Fin.val hzero
    rw [Vector.getElem_set_ne _ _ (show k.val ≠ 0 by omega)]
  · rw [Vector.getElem_set_ne _ _ (show k.val ≠ n.val - 1 by omega)]
    by_cases hn : k.val = n.val
    · have hout : ∀ b : Byte, b >>> (n.val + 1) = 0 := fun b => BitVec.ushiftRight_eq_zero (by omega)
      rw [hout, hout]
    · rw [Vector.getElem_set_ne _ _ hn]
  · rw [Vector.getElem_set_ne _ _ (show k.val ≠ 7 by omega)]

/-- Settles O13: a group packs its chunk, and an octet of it reads the two bytes that `closedOctet` names. -/
theorem groupsAreIndependent : Obligations.GroupsAreIndependent := by
  refine ⟨fun filler dc p q g hp hq h => ?_, fun dc c k d n ⟨hsucc, hcast⟩ => ?_⟩
  · have hchunk : chunkOf filler p g = chunkOf filler q g :=
      congrArg Vector.ofFn (funext fun j => by simp only [List.getD_eq_getElem?_getD, h j.val j.isLt])
    rw [frame_getElem? filler dc hp, frame_getElem? filler dc hq, hchunk]
  · rw [packGroup_getElem, packGroup_getElem, closedOctet_set dc c d hsucc hcast]

/-! ### The port words of BEGIN, BYTE and END (R89) -/

theorem eq_framerWord_of_strobes {fp : BitVec 12} {st : BitVec 3} (h : fp.extractLsb' 9 3 = st) :
    fp = framerWord st (fp.getLsbD 8) (fp.extractLsb' 0 8) := by
  subst h
  exact eq_framerWord (by simp) (by simp) (by simp)

/-! ### One slot, and END's fill loop (R150, R157, R158) -/

theorem cnt_eq_seven {c : Fin 8} (h : ¬ c.val ≤ 6) : c = 7 := Fin.ext (by simp; omega)

theorem packSlot_eq_set (dc : Bool) {i : Fin 8} (hi : i.val ≤ 6) (b : Byte) (out : Octets) : packSlot dc i b out =
    (out.set i.castSucc (out[i.castSucc] ||| selectorByte dc <<< (7 - i.val) ||| b >>> (i.val + 1))).set i.succ
      (out[i.succ] ||| b <<< (7 - i.val)) := by
  rw [packSlot_of_le dc hi]
  simp [orAt]

theorem packSlot_seven (dc : Bool) (b : Byte) (out : Octets) :
    packSlot dc 7 b out = (out.set 7 (out[7] ||| selectorByte dc)).set 8 b := by
  simp [packSlot, selectorStep, orAt]

/-- The filler goes into the slots from `c` on, in order (R158). -/
theorem paddedGroup_eq_foldl (filler : Byte) (dc : Bool) (c : Fin 8) (buf : Octets) : paddedGroup filler dc c buf =
    ((List.finRange 8).filter (c ≤ ·)).foldl (fun out i => packSlot dc i filler out) buf := by
  simp [paddedGroup, List.foldl_filter]

theorem paddedGroup_of_le (filler : Byte) (dc : Bool) {c : Fin 8} (h : c.val ≤ 6) (buf : Octets) :
    paddedGroup filler dc c buf = paddedGroup filler dc (c + 1) (packSlot dc c filler buf) := by
  have hslots : ∀ c : Fin 8, c.val ≤ 6 →
      (List.finRange 8).filter (c ≤ ·) = c :: (List.finRange 8).filter (c + 1 ≤ ·) := by decide
  rw [paddedGroup_eq_foldl, hslots c h, List.foldl_cons, paddedGroup_eq_foldl]

theorem paddedGroup_seven (filler : Byte) (dc : Bool) (buf : Octets) :
    paddedGroup filler dc 7 buf = packSlot dc 7 filler buf := rfl

/-- With a round for each free slot END's loop hands over the group padded with the filler (R158). -/
theorem padGroup_eq_transmitGroup (fuel : Nat) {s : State} (h0 : s.cnt ≠ 0) (hf : 8 ≤ s.cnt.val + fuel) :
    padGroup fuel s =
      transmitGroup { s with buf := paddedGroup s.params.filler s.dc s.cnt s.buf, cnt := 7 } := by
  induction fuel generalizing s with
  | zero => omega
  | succ fuel ih =>
    rw [padGroup_step fuel h0]
    by_cases hc : s.cnt.val ≤ 6
    · have hcnt : (s.cnt + 1).val = s.cnt.val + 1 := cnt_add_one_val hc
      have hne : s.cnt + 1 ≠ 0 := fun e => by simpa [hcnt] using congrArg Fin.val e
      rw [packByte_of_le _ hc, Ran.done_andThen, paddedGroup_of_le _ _ hc]
      exact ih hne (by simp only [hcnt]; omega)
    · have h7 : s.cnt = 7 := cnt_eq_seven hc
      rw [packByte_of_last _ h7, transmitGroup_andThen_padGroup, h7, paddedGroup_seven, ← h7]

theorem endPort_of_partial_group {s : State} (h : s.phase = .active) (h0 : s.cnt ≠ 0) : endPort s =
    (transmitGroup { s with buf := paddedGroup s.params.filler s.dc s.cnt s.buf, cnt := 7 }).andThen closeWrite := by
  rw [endPort_of_active h, padGroup_eq_transmitGroup 8 h0 (by omega)]
  rfl

/-! ### BEGIN, BYTE, END and WRITE (R156 to R159) -/

/-- Settles O14: the two settings differ in what BEGIN does to chip-select. -/
theorem beginOpensLogicalWrite : Obligations.BeginOpensLogicalWrite := by
  refine ⟨fun fp h => (congrArg decodeFramer (eq_framerWord_of_strobes h)).trans (decodeFramer_begin _ _), fun s dc =>
    ⟨fun hp he => ?_, fun hp he => ?_, fun hp => ?_⟩⟩
  · simp [exec_beginWrite, beginPort_of_idle dc hp, he, State.reply]
  · simp [exec_beginWrite, beginPort_of_idle dc hp, he, State.reply]
  · rw [exec_beginWrite, beginPort_of_active dc hp]
    rfl

/-- Settles O15: BYTE asserts chip-select and fills a slot, or fills the last one and hands the group over. -/
theorem bytePacksOneSlot : Obligations.BytePacksOneSlot := by
  refine ⟨fun fp h => (congrArg decodeFramer (eq_framerWord_of_strobes h)).trans (decodeFramer_byte _ _), ?_⟩
  rintro s d select rfl
  refine ⟨fun hp => ?_, fun hp hc => ?_, ?_⟩
  · rw [exec_byte, bytePort_of_idle d hp]
    rfl
  · have hslot : s.assertSelect.cnt.val ≤ 6 := by simpa using hc
    rw [exec_byte, bytePort_of_active d hp, packByte_of_le d hslot, ofNat_shiftLeft_and]
    simp [packSlot_eq_set s.dc hc, State.reply]
  · rintro hp hc g rfl
    have hlast : s.assertSelect.cnt = 7 := by simpa using hc
    rw [exec_byte, bytePort_of_active d hp, packByte_of_last d hlast]
    refine ⟨fun t ht => ?_, fun err t ht => ⟨failTail s, failTail_cases s, ?_⟩, fun ht => ?_⟩
    · rw [transmitGroup_of_ok (by simpa using ht)]
      simp [packSlot_seven, State.reply]
    · rw [transmitGroup_of_fail (by simpa using ht)]
      simp [packSlot_seven, failedState, failTail, abandoned, State.reply]
    · rw [transmitGroup_of_none (by simpa using ht)]
      rfl

/-- Settles O16: END hands the padded group over, if there is one, and closes the write. -/
theorem endFlushesAndReleases : Obligations.EndFlushesAndReleases := by
  refine ⟨fun fp h => (congrArg decodeFramer (eq_framerWord_of_strobes h)).trans (decodeFramer_end _ _), ?_⟩
  rintro s release rfl
  refine ⟨fun hp => ?_, fun hp hc => ?_, ?_⟩
  · rw [exec_endWrite, endPort_of_idle hp]
    rfl
  · rw [exec_endWrite, endPort_of_group_start hp hc, closeWrite]
    simp [State.reply]
  · rintro hp hc g rfl
    rw [exec_endWrite, endPort_of_partial_group hp hc]
    refine ⟨fun t ht => ?_, fun err t ht => ⟨failTail s, failTail_cases s, ?_⟩, fun ht => ?_⟩
    · rw [transmitGroup_of_ok (by exact ht), Ran.done_andThen, closeWrite]
      simp [completed, State.reply]
    · rw [transmitGroup_of_fail (by exact ht)]
      rfl
    · rw [transmitGroup_of_none (by exact ht)]
      rfl

/-- Settles O18: the groups that the write hands over are those of the frame. -/
theorem writeTransmitsFrame : Obligations.WriteTransmitsFrame := by
  intro s dc p t h ht
  rw [exec_write, logicalWrite_of_oks dc p h ht]
  rfl

/-- Settles O22: WRITE is refused at its BEGIN. -/
theorem writeInsideOpenWriteIsRefused : Obligations.WriteInsideOpenWriteIsRefused := by
  intro s dc p h
  rw [exec_write, logicalWrite_of_active dc p h]
  rfl

/-! ### The framer does not read the log of outcomes (R26, log entry 10) -/

/-- `s` with another log of outcomes. -/
def State.withReplies (rs : List Reply) (s : State) : State := { s with replies := rs }

/-- The same end of a part of an operation, with another log of outcomes. -/
def Ran.withReplies (rs : List Reply) : Ran → Ran
  | .done s => .done (s.withReplies rs)
  | .raised f s => .raised f (s.withReplies rs)
  | .unanswered => .unanswered

/-- A part of an operation does the same whatever the log holds, and leaves the log as it is. -/
def IgnoresReplies (k : State → Ran) : Prop := ∀ rs s, k (s.withReplies rs) = (k s).withReplies rs

theorem IgnoresReplies.andThen {j k : State → Ran} (hj : IgnoresReplies j) (hk : IgnoresReplies k) :
    IgnoresReplies fun s => (j s).andThen k := by
  intro rs s
  simp only [hj rs s]
  cases j s with
  | done t => exact hk rs t
  | raised f t => rfl
  | unanswered => rfl

theorem transmitGroup_ignoresReplies : IgnoresReplies transmitGroup := by
  intro rs s
  rcases h : s.transport.next with _ | ⟨_ | err, t⟩
  · rw [transmitGroup_of_none h, transmitGroup_of_none (s := s.withReplies rs) h]
    rfl
  · rw [transmitGroup_of_ok h, transmitGroup_of_ok (s := s.withReplies rs) h]
    rfl
  · rw [transmitGroup_of_fail h, transmitGroup_of_fail (s := s.withReplies rs) h]
    rfl

theorem packByte_ignoresReplies (d : Byte) : IgnoresReplies (packByte d) := by
  intro rs s
  by_cases hc : s.cnt.val ≤ 6
  · rw [packByte_of_le d hc, packByte_of_le (s := s.withReplies rs) d hc]
    rfl
  · have h7 : s.cnt = 7 := cnt_eq_seven hc
    rw [packByte_of_last d h7, packByte_of_last (s := s.withReplies rs) d h7]
    exact transmitGroup_ignoresReplies rs { s with buf := packSlot s.dc 7 d s.buf }

theorem assertSelect_withReplies (rs : List Reply) (s : State) :
    (s.withReplies rs).assertSelect = s.assertSelect.withReplies rs := by
  cases h : s.sel <;> simp [State.assertSelect, State.withReplies, State.emit, h]

theorem bytePort_ignoresReplies (d : Byte) : IgnoresReplies (bytePort d) := by
  intro rs s
  cases hp : s.phase with
  | idle =>
    rw [bytePort_of_idle d hp, bytePort_of_idle (s := s.withReplies rs) d hp]
    rfl
  | active =>
    rw [bytePort_of_active d hp, bytePort_of_active (s := s.withReplies rs) d hp, assertSelect_withReplies]
    exact packByte_ignoresReplies d rs _

theorem bytesPort_ignoresReplies (p : List Byte) : IgnoresReplies (bytesPort p) := by
  induction p with
  | nil => exact fun _ _ => rfl
  | cons d p ih => exact (bytePort_ignoresReplies d).andThen ih

theorem padGroup_ignoresReplies (fuel : Nat) : IgnoresReplies (padGroup fuel) := by
  induction fuel with
  | zero => exact fun _ _ => rfl
  | succ fuel ih =>
    intro rs s
    by_cases hc : s.cnt = 0
    · rw [padGroup_of_start _ hc, padGroup_of_start (s := s.withReplies rs) _ hc]
      rfl
    · rw [padGroup_step _ hc, padGroup_step (s := s.withReplies rs) _ hc]
      exact (packByte_ignoresReplies s.params.filler).andThen ih rs s

theorem closeWrite_ignoresReplies : IgnoresReplies closeWrite := by
  intro rs s
  cases h : s.sel <;> simp [closeWrite, State.releaseSelect, State.withReplies, Ran.withReplies, State.emit, h]

theorem endPort_ignoresReplies : IgnoresReplies endPort := by
  intro rs s
  cases hp : s.phase with
  | idle =>
    rw [endPort_of_idle hp, endPort_of_idle (s := s.withReplies rs) hp]
    rfl
  | active =>
    rw [endPort_of_active hp, endPort_of_active (s := s.withReplies rs) hp]
    exact (padGroup_ignoresReplies 8).andThen closeWrite_ignoresReplies rs s

/-! ### An operation and its parts presented one by one (R159) -/

/-- `o'` ends as `o` does, in a state that differs at most in the outcomes logged before the last. -/
def AgreeButForLog (o o' : Host.Outcome State Fault Refusal) : Prop :=
  (∀ t, o = .next t → ∃ u, o' = .next u ∧ { u with replies := t.replies } = t ∧
    u.replies.getLast? = t.replies.getLast?) ∧
  ∀ f, o = .fault f → o' = .fault f

theorem AgreeButForLog.refl (o : Host.Outcome State Fault Refusal) : AgreeButForLog o o :=
  ⟨fun t ht => ⟨t, ht, rfl, rfl⟩, fun _ hf => hf⟩

theorem AgreeButForLog.next {t u : State} (h : u.withReplies t.replies = t)
    (hlast : u.replies.getLast? = t.replies.getLast?) : AgreeButForLog (.next t) (.next u) := by
  refine ⟨fun v hv => ?_, nofun⟩
  cases hv
  exact ⟨u, rfl, h, hlast⟩

/-- Another log before the end of an operation makes no difference to the agreement. -/
theorem AgreeButForLog.of_withReplies {rs : List Reply} {r : Ran} {o : Host.Outcome State Fault Refusal}
    (h : AgreeButForLog (r.withReplies rs).finish o) : AgreeButForLog r.finish o := by
  have hended : ∀ {t : State} {a : Reply}, AgreeButForLog (.next ((t.withReplies rs).reply a)) o →
      AgreeButForLog (.next (t.reply a)) o := by
    intro t a h
    obtain ⟨u, rfl, hu, hlast⟩ := h.1 _ rfl
    have ht : u.withReplies (t.replies ++ [a]) = t.reply a :=
      (congrArg (State.withReplies (t.replies ++ [a])) hu :)
    exact .next ht (hlast.trans (by simp))
  cases r with
  | done t => exact hended h
  | raised f t => exact hended h
  | unanswered => exact h

/-- One operation of a sequence that is cut short at the first fault: done, it makes way for the rest. -/
theorem agreeButForLog_cons {i : Instr} {j k : State → Ran} {rest : List Instr} {s : State}
    (hexec : exec i s = (j s).finish) (hk : IgnoresReplies k)
    (hrest : ∀ t, AgreeButForLog (k t).finish (runUntilFault rest t)) :
    AgreeButForLog ((j s).andThen k).finish (runUntilFault (i :: rest) s) := by
  cases hr : j s with
  | done t =>
    have hrun : runUntilFault (i :: rest) s = runUntilFault rest (t.reply .done) := by
      simp [runUntilFault, hexec, hr, endsInFault]
    rw [hrun]
    exact .of_withReplies (hk _ t ▸ hrest (t.reply .done))
  | raised f t =>
    have hrun : runUntilFault (i :: rest) s = .next (t.reply (.fault f)) := by
      simp [runUntilFault, hexec, hr, endsInFault]
    rw [hrun]
    exact .refl _
  | unanswered =>
    have hrun : runUntilFault (i :: rest) s = .fault .transportUnanswered := by
      simp [runUntilFault, hexec, hr]
    rw [hrun]
    exact .refl _

theorem runUntilFault_singleton (i : Instr) (s : State) : runUntilFault [i] s = exec i s := by
  cases h : exec i s <;> simp [runUntilFault, h]

/-- The BYTEs of a payload and END, whatever has been logged before them. -/
theorem bytesPort_endPort_agree (p : List Byte) (s : State) :
    AgreeButForLog ((bytesPort p s).andThen endPort).finish (runUntilFault (p.map .byte ++ [.endWrite]) s) := by
  induction p generalizing s with
  | nil =>
    rw [List.map_nil, List.nil_append, runUntilFault_singleton]
    exact .refl _
  | cons d p ih =>
    rw [bytesPort, Ran.andThen_assoc]
    exact agreeButForLog_cons (exec_byte d s) ((bytesPort_ignoresReplies p).andThen endPort_ignoresReplies) ih

/-- Settles O19: WRITE goes on after each part as the sequence does after each operation, and no part reads the log. -/
theorem writeIsItsPortSequence : Obligations.WriteIsItsPortSequence := by
  intro s dc p
  have h := agreeButForLog_cons (exec_beginWrite dc s) ((bytesPort_ignoresReplies p).andThen endPort_ignoresReplies)
    (bytesPort_endPort_agree p)
  rwa [← Ran.andThen_assoc] at h

end Sys2Proof.Machine

namespace Sys2Proof.Machine

open Sys2Proof.Claims

/-! ### The writes of a pseudo-operation, all answered ok (R183) -/

/-- `s` after logical writes that added `events`, the last of them with selector `dc`: what `completed` says without the
outcome. -/
def written (s : State) (dc : Bool) (events : List Event) (t : Transport) : State :=
  { s with dc := dc, buf := Octets.zero, cnt := 0, phase := .idle, sel := false, trace := s.trace ++ events, transport := t }

theorem written_reply_done (s : State) (dc : Bool) (events : List Event) (t : Transport) :
    (written s dc events t).reply .done = completed s dc events t := rfl

/-- The events of complete logical writes, one after the other. -/
def writesTrace (p : Params) (ws : List (Bool × List Byte)) : List Event :=
  (writesGroups p.filler ws).flatMap (writeTrace p.emptyWriteSelects)

@[simp] theorem writesTrace_nil (p : Params) : writesTrace p [] = [] := rfl

theorem writesTrace_cons (p : Params) (w : Bool × List Byte) (ws : List (Bool × List Byte)) : writesTrace p (w :: ws) =
    writeTrace p.emptyWriteSelects (frame p.filler w.1 w.2) ++ writesTrace p ws := rfl

theorem groupTotal_cons (w : Bool × List Byte) (ws : List (Bool × List Byte)) :
    groupTotal (w :: ws) = groupCount w.2.length + groupTotal ws := by
  simp [groupTotal]

/-- The selector of the last write. -/
def lastSelector (ws : List (Bool × List Byte)) : Bool := (ws.getLastD default).1

/-- All groups of all writes answered ok: `DC` keeps the selector of the last write (R21). -/
theorem logicalWrites_of_oks (ws : List (Bool × List Byte)) (hne : ws ≠ []) {s : State} {t : Transport}
    (h : s.phase = .idle) (ht : s.transport.afterOks (groupTotal ws) = some t) :
    logicalWrites ws s = .done (written s (lastSelector ws) (writesTrace s.params ws) t) := by
  induction ws generalizing s with
  | nil => exact absurd rfl hne
  | cons w ws ih =>
    rw [groupTotal_cons, Transport.afterOks_add] at ht
    obtain ⟨u, hu, ht⟩ := Option.bind_eq_some_iff.1 ht
    rw [logicalWrites, logicalWrite_of_oks w.1 w.2 h hu, Ran.done_andThen, writesTrace_cons]
    cases ws with
    | nil =>
      obtain rfl : u = t := by simpa [groupTotal, Transport.afterOks] using ht
      simp [logicalWrites, written, lastSelector]
    | cons w' ws =>
      rw [ih (List.cons_ne_nil w' ws) rfl ht]
      simp [written, lastSelector]

/-- A write with payload asserts chip-select, whatever the setting for empty writes (R154, R159). -/
theorem writeTrace_frame (b : Bool) (filler : Byte) (dc : Bool) {p : List Byte} (hp : p ≠ []) :
    writeTrace b (frame filler dc p) = [.select] ++ (frame filler dc p).map .tx ++ [.deselect] := by
  obtain ⟨g, gs, hf, -⟩ := frame_of_nonempty filler dc hp
  simp [writeTrace, hf]

/-- One write with payload. -/
theorem writesTrace_singleton (ps : Params) (dc : Bool) {p : List Byte} (hp : p ≠ []) : writesTrace ps [(dc, p)] =
    [.select] ++ (frame ps.filler dc p).map .tx ++ [.deselect] := by
  rw [writesTrace_cons, writeTrace_frame _ _ _ hp, writesTrace_nil, List.append_nil]

theorem eventsUpTo_singleton (b : Bool) {groups : List Octets} {n : Nat} (hn : n < groups.length) :
    eventsUpTo b [groups] n = [.select] ++ (groups.take (n + 1)).map .tx := by
  simp [eventsUpTo, hn]

/-! ### A pseudo-operation by its shape (R183) -/

section
variable {i : Instr} (S : SessionShape i) {s : State}

/-- Refused in a session state that the table of R182 excludes (R213). -/
theorem exec_session_of_invalid (hv : validIn S.op s.session = false) :
    exec i s = .next (returned s (.fault (.eInvalidState S.op s.session))) := by
  rw [S.exec_eq, sessionOperation, hv]
  rfl

variable (hv : validIn S.op s.session = true)
include hv

/-- Its writes done, the update follows. -/
theorem exec_session_of_done {u : State} (hw : logicalWrites (S.writes s.params.cat) (S.pre s) = .done u) :
    exec i s = .next ((S.update u).reply .done) := by
  rw [S.exec_eq, sessionOperation, if_pos hv, hw]
  rfl

/-- A failed transmit unconfigures the session (R221). -/
theorem exec_session_of_raised {u : State} {err : TransportError}
    (hw : logicalWrites (S.writes s.params.cat) (S.pre s) = .raised (.eTransport err) u) :
    exec i s = .next (State.reply { u with session := .unconfigured } (.fault (.eTransport err))) := by
  rw [S.exec_eq, sessionOperation, if_pos hv, hw]
  rfl

/-- Refused by the framer inside an open write (R218). -/
theorem exec_session_of_active (hp : s.phase = .active) : exec i s =
    .next (returned { S.pre s with session := s.session } (.fault (.eProtocol .beginWhileActive))) := by
  have hpre : (S.pre s).phase = .active := (S.pre_sameFramer s).phase.trans hp
  obtain ⟨w, ws, hws⟩ := List.exists_cons_of_ne_nil (S.nonempty s.params.cat)
  rw [S.exec_eq, sessionOperation, if_pos hv, hws, logicalWrites_of_active w ws hpre]
  rfl

theorem exec_session_of_oks (hp : s.phase = .idle) {t : Transport}
    (ht : s.transport.afterOks (groupTotal (S.writes s.params.cat)) = some t) : exec i s =
      .next ((S.update (written (S.pre s) (lastSelector (S.writes s.params.cat))
        (writesTrace s.params (S.writes s.params.cat)) t)).reply .done) := by
  have hpre : (S.pre s).phase = .idle := (S.pre_sameFramer s).phase.trans hp
  refine exec_session_of_done S hv ?_
  rw [logicalWrites_of_oks _ (S.nonempty _) hpre (by rwa [S.pre_transport]), S.pre_params]

theorem exec_session_of_fail (hp : s.phase = .idle) {n : Nat} (hn : n < groupTotal (S.writes s.params.cat))
    {u t : Transport} {err : TransportError} (hu : s.transport.afterOks n = some u)
    (hf : u.next = some (.fail err, t)) : ∃ tail, FailTail tail ∧
      exec i s = .next (abandoned { S.pre s with dc := selectorOf (S.writes s.params.cat) n, session := .unconfigured }
        (eventsUpTo s.params.emptyWriteSelects (writesGroups s.params.filler (S.writes s.params.cat)) n ++ tail) t err) := by
  have hpre : (S.pre s).phase = .idle := (S.pre_sameFramer s).phase.trans hp
  have hw := logicalWrites_of_fail _ n hpre hn (by rwa [S.pre_transport]) hf
  refine ⟨_, failTail_cases (S.pre s), (exec_session_of_raised S hv hw).trans ?_⟩
  rw [← S.pre_params s]
  rfl

end

/-! ### Pseudo-operations of one group (R184 to R193) -/

/-- One write of one to eight bytes has one group. -/
theorem groupTotal_singleton (dc : Bool) {p : List Byte} (hp : 0 < p.length) (hp8 : p.length ≤ 8) :
    groupTotal [(dc, p)] = 1 := by
  simp only [groupTotal, groupCount, List.map_cons, List.map_nil, List.sum_cons, List.sum_nil]
  omega

theorem writesGroups_singleton (filler : Byte) (dc : Bool) {p : List Byte} (hp : 0 < p.length) (hp8 : p.length ≤ 8) :
    writesGroups filler [(dc, p)] = [[packGroup dc (chunkOf filler p 0)]] := by
  simp [writesGroups, frame_of_short filler dc p hp hp8]

/-- The pseudo-operation of shape `S` has one command write of one to eight bytes. The default proofs fit an operation of
`sessionShape` with nothing before its write, whose payload and update are written as in its definition. -/
structure SessionShape.SingleGroup {i : Instr} (S : SessionShape i) (valid : List Session) (before : State → List Event)
    (payload : Catalog → List Byte) (update : State → State) : Prop where
  valid_iff    : ∀ x, x ≠ .initializing → (validIn S.op x = true ↔ x ∈ valid) := by simp [sessionShape, validIn]
  writes_eq    : ∀ cat, S.writes cat = [(false, payload cat)] := by intro; rfl
  payload_size : ∀ cat, 0 < (payload cat).length ∧ (payload cat).length ≤ 8 := by simp
  pre_before   : ∀ s, S.pre s = { s with trace := s.trace ++ before s } := by simp [sessionShape]
  update_reply : ∀ s r, (S.update s).reply r = update (s.reply r) := by intros; rfl

theorem singleGroupOperation_of_shape {i : Instr} {S : SessionShape i} {valid : List Session} {before : State → List Event}
    {payload : Catalog → List Byte} {update : State → State} (h : S.SingleGroup valid before payload update) :
    SingleGroupOperation i S.op valid before payload update := by
  obtain ⟨hvalid, hwrites, hsize, hbefore, hupdate⟩ := h
  intro s hsettled
  have hiff := hvalid s.session hsettled
  obtain ⟨hpos, hle⟩ := hsize s.params.cat
  have hgroups := writesGroups_singleton s.params.filler false hpos hle
  have htotal : groupTotal (S.writes s.params.cat) = 1 := by rw [hwrites, groupTotal_singleton false hpos hle]
  refine ⟨fun hx => ?_, fun hx hp => ?_, ?_⟩
  · exact exec_session_of_invalid S (Bool.eq_false_iff.2 (mt hiff.1 hx))
  · rw [exec_session_of_active S (hiff.2 hx) hp, hbefore]
  rintro hx hp g rfl
  have hv := hiff.2 hx
  refine ⟨fun t ht => ?_, fun err t ht => ?_, fun ht => ?_⟩
  · have hok : s.transport.afterOks 1 = some t := by simp [Transport.afterOks, ht]
    rw [exec_session_of_oks S hv hp (htotal ▸ hok), hupdate, written_reply_done]
    simp [hwrites, lastSelector, hbefore, writesTrace, hgroups, writeTrace, completed]
  · obtain ⟨tail, htail, he⟩ := exec_session_of_fail S hv hp (n := 0) (by omega) rfl ht
    refine ⟨tail, htail, he.trans ?_⟩
    simp [hwrites, hbefore, hgroups, eventsUpTo, selectorOf, abandoned]
  · exact exec_session_of_none S 0 hv hp (by omega) rfl ht

/-- Settles O25: what precedes the write is the pulse, if there is a line; every settled session allows `reset`. -/
theorem resetSendsSoftwareReset : Obligations.ResetSendsSoftwareReset :=
  singleGroupOperation_of_shape (S := sessionShape .sessionReset rfl)
    { valid_iff := by
        intro x hx
        cases x <;> simp [sessionShape, validIn] at hx ⊢
      pre_before := by
        intro s
        cases h : s.params.hasResetLine <;> simp [sessionShape, pulseResetLine, State.emit, h] }

/-- Settles O26: the level is stored by its low five bits. -/
theorem setContrastSendsAndStoresLevel : Obligations.SetContrastSendsAndStoresLevel := fun level =>
  singleGroupOperation_of_shape (S := sessionShape (.setContrast level) rfl)
    { update_reply := by simp [sessionShape, contrastField_eq, State.reply] }

/-- Settles O27: the flag chooses between two one-byte payloads. -/
theorem setInversionSendsAndStoresFlag : Obligations.SetInversionSendsAndStoresFlag := fun flag =>
  singleGroupOperation_of_shape (S := sessionShape (.setInversion flag) rfl) {}

/-- Settles O28: either way round the pair is one payload of two bytes. -/
theorem setRotationSendsAndStoresRotation : Obligations.SetRotationSendsAndStoresRotation := fun rotation =>
  singleGroupOperation_of_shape (S := sessionShape (.setRotation rotation) rfl)
    { writes_eq := by
        intro cat
        simp only [sessionShape, rotationWrites, byteSegment, byteCommon]
        split_ifs <;> rfl
      payload_size := by intro cat; split_ifs <;> simp }

/-- Settles O29: the two commands are one payload. -/
theorem sleepTrueSendsDisplayOffAllOn : Obligations.SleepTrueSendsDisplayOffAllOn :=
  singleGroupOperation_of_shape (S := sessionShape (.sleep true) rfl) {}

/-- Settles O30: the one command is one payload. -/
theorem sleepFalseSendsAllNormal : Obligations.SleepFalseSendsAllNormal :=
  singleGroupOperation_of_shape (S := sessionShape (.sleep false) rfl) {}

/-- Settles O33: the second operation meets the session and the transport that the first leaves. -/
theorem sleepPairLeavesConfiguration : Obligations.SleepPairLeavesConfiguration := by
  intro s t hs hp ht
  obtain ⟨u, hu, hlast⟩ := (Transport.afterOks_succ_eq_some_iff 1 _ _).1 ht
  obtain ⟨v, hv, hvt⟩ := (Transport.afterOks_succ_eq_some_iff 0 _ _).1 hlast
  obtain rfl : v = t := by simpa [Transport.afterOks] using hvt
  have hsettled : s.SessionSettled := by simp [State.SessionSettled, hs]
  obtain ⟨hsleep, -⟩ := (sleepTrueSendsDisplayOffAllOn s hsettled).2.2 (by simp [hs]) hp _ rfl
  refine ⟨_, _, hsleep u hu,
    ((sleepFalseSendsAllNormal _ (by simp [State.SessionSettled])).2.2 (by simp) rfl _ rfl).1 v hv,
    rfl, rfl, rfl, rfl, rfl, ?_, ?_⟩
  · simp [completed]
  · simp [completed]

/-! ### The operations of several groups (R186, R197) -/

/-- The ratio is stored cut to 3 bits (R34). -/
theorem ratioField_eq (r : Nat) : ratioField r = BitVec.ofNat 3 r :=
  BitVec.eq_of_toNat_eq (by simp [ratioField, Nat.and_two_pow_sub_one_eq_mod r 3])

/-- Parameter 0 leaves the base as it is (R82). -/
@[simp] theorem fieldCommand_zero (base : Byte) (mask : Nat) : fieldCommand base mask 0 = base := by
  simp [fieldCommand]

@[simp] theorem byteStartline_zero (cat : Catalog) : byteStartline cat 0 = cat.baseStartline := fieldCommand_zero _ _
@[simp] theorem bytePage_zero (cat : Catalog) : bytePage cat 0 = cat.basePage := fieldCommand_zero _ _
@[simp] theorem columnPair_zero (cat : Catalog) : columnPair cat 0 = [cat.baseColMsb, cat.baseColLsb] := by
  simp [columnPair, byteColmsb, columnHigh, byteCollsb]

/-- Settles O31: the nine commands are one payload, of two groups. -/
theorem initializeSendsNineCommands : Obligations.InitializeSendsNineCommands := by
  rintro s rotation inverse contrast ratio list groups - hlist rfl
  let S := sessionShape (.sessionInitialize rotation inverse contrast ratio) rfl
  have hwrites : S.writes s.params.cat = [(false, list)] := by
    rw [hlist, ← byteStartline_zero]
    rfl
  have hlen : list.length = 9 := by rw [hlist]; rfl
  have hne : list ≠ [] := by simp [hlist]
  have hcount : (frame s.params.filler false list).length = 2 := by rw [frame_length, hlen]; rfl
  have htotal : groupTotal (S.writes s.params.cat) = 2 := groupTotal_initializeWrites ..
  have hvalid : s.session = .reset ∨ s.session = .operating → validIn S.op s.session = true := by
    rintro (h | h) <;> rw [h] <;> rfl
  refine ⟨fun hx => ?_, fun hx hp => exec_session_of_active S (hvalid hx) hp, 
    fun hx hp => ⟨fun t ht => ⟨hcount, ?_⟩, fun n u err t hn hu hf => ?_⟩⟩
  · refine exec_session_of_invalid S ?_
    rcases hx with h | h <;> rw [h] <;> rfl
  · rw [exec_session_of_oks S (hvalid hx) hp (htotal ▸ ht)]
    rw [hwrites, writesTrace_singleton _ _ hne, ← contrastField_eq, ← ratioField_eq]
    rfl
  · obtain ⟨tail, htail, he⟩ := exec_session_of_fail S (hvalid hx) hp (htotal ▸ hn) hu hf
    have hdc : selectorOf [(false, list)] n = false := by simp [selectorOf]
    have hgroups : writesGroups s.params.filler [(false, list)] = [frame s.params.filler false list] := rfl
    rw [hwrites, hdc, hgroups, eventsUpTo_singleton _ (hcount ▸ hn)] at he
    exact ⟨tail, htail, he⟩

/-- The payload of refresh's data write is the framebuffer (R54, R197). -/
theorem framebufferPayload_eq (fb : List Byte) : framebufferPayload fb = fb := by
  refine List.ext_getElem (framebufferPayload_length fb) fun k hk hk' => ?_
  simp [framebufferPayload, memRead, hk']

/-- Settles O32: the groups of the three writes are counted through. -/
theorem refreshSendsAddressDataDisplayOn : Obligations.RefreshSendsAddressDataDisplayOn := by
  intro s fb addr hs haddr
  let S := sessionShape (.refresh fb) rfl
  have hwrites : S.writes s.params.cat = [(false, addr), (true, fb), (false, [s.params.cat.opDisplayOn])] := by
    rw [haddr]
    simp [S, sessionShape, refreshWrites, framebufferPayload_eq, byteDispon]
  have htotal : groupTotal (S.writes s.params.cat) = 1 + groupCount fb.length + 1 := groupTotal_refreshWrites ..
  have hlen : addr.length = 4 := by rw [haddr]; rfl
  have hvalid : validIn S.op s.session = true := by rw [hs]; rfl
  refine ⟨fun hp => exec_session_of_active S hvalid hp, fun hp t ht => ?_, fun hp n u err t hn hu hf => ?_⟩
  · rw [exec_session_of_oks S hvalid hp (htotal ▸ ht)]
    simp only [hwrites, writesTrace_cons, writesTrace_nil, List.append_nil, List.append_assoc]
    rfl
  · obtain ⟨tail, htail, he⟩ := exec_session_of_fail S hvalid hp (htotal ▸ hn) hu hf
    have hdc : selectorOf [(false, addr), (true, fb), (false, [s.params.cat.opDisplayOn])] n =
        decide (1 ≤ n ∧ n < 1 + groupCount fb.length) := by
      have haddress : groupCount addr.length = 1 := by rw [hlen]; rfl
      simp only [selectorOf, haddress, ite_self]
      split_ifs with hfirst hdata
      · exact (decide_eq_false (by omega)).symm
      · exact (decide_eq_true (by omega)).symm
      · exact (decide_eq_false (by omega)).symm
    rw [hwrites, hdc] at he
    exact ⟨tail, htail, he⟩

/-! ### How `SESSION` moves (R181) -/

/-- Settles O37: an operation of the block keeps the session, and a pseudo-operation moves it only by its update, within
the table of R182, or by a failed transmit. -/
theorem sessionMovesOnlyByItsTransitions : Obligations.SessionMovesOnlyByItsTransitions := by
  intro i s t _ hx hmove
  cases hi : isSessionOp i with
  | false =>
    obtain ⟨u, r, hu, rfl⟩ := exec_block_next hi hx
    exact absurd hu.session hmove
  | true =>
    cases sessionOutcome i hi s with
    | invalid hv he => cases hx.symm.trans he; exact absurd rfl hmove
    | open_write hv hp he => cases hx.symm.trans he; exact absurd rfl hmove
    | stuck hv hp hw he => cases hx.symm.trans he
    | failed hv hp err u hw hf hu he =>
      cases hx.symm.trans he
      have hr : u.replies = s.replies := hf.replies.trans (SessionShape.pre_replies _ s)
      exact .inr (.inr (.inr (.inr ⟨rfl, rfl, err, congrArg (· ++ _) hr⟩)))
    | completed hv hp u hw hf hu he =>
      cases hx.symm.trans he
      have hr : u.replies = s.replies := hf.replies.trans (SessionShape.pre_replies _ s)
      have hdone : (((sessionShape i hi).update u).reply .done).replies = s.replies ++ [.done] :=
        congrArg (· ++ _) ((SessionShape.update_replies _ u).trans hr)
      cases i with
      | sessionReset => exact .inl ⟨rfl, rfl, hdone⟩
      | sessionInitialize rotation inverse contrast ratio =>
        have hs : s.session = .reset := by
          cases h : s.session <;> simp [sessionShape, validIn, h] at hv hmove ⊢
        exact .inr (.inl ⟨⟨_, _, _, _, rfl⟩, hs, rfl, hdone⟩)
      | sleep enable =>
        have hs : s.session = .operating ∨ s.session = .sleeping := by simpa [sessionShape, validIn] using hv
        cases enable with
        | true => exact .inr (.inr (.inl ⟨rfl, hs.resolve_right fun h => hmove h.symm, rfl, hdone⟩))
        | false => exact .inr (.inr (.inr (.inl ⟨rfl, hs.resolve_left fun h => hmove h.symm, rfl, hdone⟩)))
      | setContrast | setInversion | setRotation | refresh => exact absurd hf.session hmove
      | _ => cases hi

/-! ### No operation reads `CFG` or the history (R187) -/

/-- `s` with another configuration, and with more history before its own. -/
def State.rebased (c : SessionConfig) (events : List Event) (replies : List Reply) (s : State) : State :=
  { s with cfg := c, trace := events ++ s.trace, replies := replies ++ s.replies }

/-- The same end of a part of an operation, after another history. -/
def Ran.rebased (c : SessionConfig) (events : List Event) (replies : List Reply) : Ran → Ran
  | .done s => .done (s.rebased c events replies)
  | .raised f s => .raised f (s.rebased c events replies)
  | .unanswered => .unanswered

/-- A part of an operation does the same whatever `CFG` and the history are, and leaves them as they are. -/
def IgnoresHistory (k : State → Ran) : Prop :=
  ∀ c events replies s, k (s.rebased c events replies) = (k s).rebased c events replies

theorem IgnoresHistory.andThen {j k : State → Ran} (hj : IgnoresHistory j) (hk : IgnoresHistory k) :
    IgnoresHistory fun s => (j s).andThen k := by
  intro c events replies s
  simp only [hj c events replies s]
  cases j s with
  | done t => exact hk c events replies t
  | raised f t => rfl
  | unanswered => rfl

section
variable (c : SessionConfig) (events : List Event) (replies : List Reply)

theorem rebased_reply (s : State) (r : Reply) :
    (s.rebased c events replies).reply r = (s.reply r).rebased c events replies := by
  simp [State.rebased, State.reply]

theorem rebased_assertSelect (s : State) :
    (s.rebased c events replies).assertSelect = s.assertSelect.rebased c events replies := by
  cases h : s.sel <;> simp [State.assertSelect, State.rebased, State.emit, h]

theorem rebased_releaseSelect (s : State) :
    (s.rebased c events replies).releaseSelect = s.releaseSelect.rebased c events replies := by
  cases h : s.sel <;> simp [State.releaseSelect, State.rebased, State.emit, h]

theorem rebased_begun (dc : Bool) (s : State) :
    begun dc (s.rebased c events replies) = (begun dc s).rebased c events replies := by
  cases h : s.params.emptyWriteSelects <;> simp [begun, State.rebased, h]

theorem failTail_rebased (s : State) : failTail (s.rebased c events replies) = failTail s := rfl

end

theorem transmitGroup_ignoresHistory : IgnoresHistory transmitGroup := by
  intro c events replies s
  rcases h : s.transport.next with _ | ⟨_ | err, t⟩
  · rw [transmitGroup_of_none h, transmitGroup_of_none (s := s.rebased c events replies) h]
    rfl
  · rw [transmitGroup_of_ok h, transmitGroup_of_ok (s := s.rebased c events replies) h]
    simp [Ran.rebased, State.rebased]
  · rw [transmitGroup_of_fail h, transmitGroup_of_fail (s := s.rebased c events replies) h, failedState, failTail_rebased]
    simp [Ran.rebased, State.rebased, failedState]

theorem packByte_ignoresHistory (d : Byte) : IgnoresHistory (packByte d) := by
  intro c events replies s
  by_cases hc : s.cnt.val ≤ 6
  · rw [packByte_of_le d hc, packByte_of_le (s := s.rebased c events replies) d hc]
    rfl
  · have h7 : s.cnt = 7 := cnt_eq_seven hc
    rw [packByte_of_last d h7, packByte_of_last (s := s.rebased c events replies) d h7]
    exact transmitGroup_ignoresHistory c events replies { s with buf := packSlot s.dc 7 d s.buf }

theorem bytePort_ignoresHistory (d : Byte) : IgnoresHistory (bytePort d) := by
  intro c events replies s
  cases hp : s.phase with
  | idle =>
    rw [bytePort_of_idle d hp, bytePort_of_idle (s := s.rebased c events replies) d hp]
    rfl
  | active =>
    rw [bytePort_of_active d hp, bytePort_of_active (s := s.rebased c events replies) d hp, rebased_assertSelect]
    exact packByte_ignoresHistory d c events replies _

theorem beginPort_ignoresHistory (dc : Bool) : IgnoresHistory (beginPort dc) := by
  intro c events replies s
  cases hp : s.phase with
  | idle =>
    rw [beginPort_of_idle dc hp, beginPort_of_idle (s := s.rebased c events replies) dc hp]
    exact congrArg Ran.done (rebased_begun c events replies dc s)
  | active =>
    rw [beginPort_of_active dc hp, beginPort_of_active (s := s.rebased c events replies) dc hp]
    rfl

theorem closeWrite_ignoresHistory : IgnoresHistory closeWrite := by
  intro c events replies s
  rw [closeWrite, rebased_releaseSelect]
  rfl

theorem endPort_ignoresHistory : IgnoresHistory endPort := by
  intro c events replies s
  cases hp : s.phase with
  | idle =>
    rw [endPort_of_idle hp, endPort_of_idle (s := s.rebased c events replies) hp]
    rfl
  | active =>
    by_cases hc : s.cnt = 0
    · rw [endPort_of_group_start hp hc, endPort_of_group_start (s := s.rebased c events replies) hp hc]
      exact closeWrite_ignoresHistory c events replies s
    · rw [endPort_of_partial_group hp hc, endPort_of_partial_group (s := s.rebased c events replies) hp hc]
      exact transmitGroup_ignoresHistory.andThen closeWrite_ignoresHistory c events replies
        { s with buf := paddedGroup s.params.filler s.dc s.cnt s.buf, cnt := 7 }

theorem handOver_ignoresHistory (gs : List Octets) : IgnoresHistory (handOver gs) := by
  induction gs with
  | nil => exact fun _ _ _ _ => rfl
  | cons g gs ih =>
    intro c events replies s
    rw [handOver, rebased_assertSelect]
    exact transmitGroup_ignoresHistory.andThen ih c events replies { s.assertSelect with buf := g, cnt := 7 }

theorem logicalWrite_ignoresHistory (dc : Bool) (p : List Byte) : IgnoresHistory (logicalWrite dc p) := by
  intro c events replies s
  cases hp : s.phase with
  | idle =>
    rw [logicalWrite_of_idle dc p hp, logicalWrite_of_idle dc p (s := s.rebased c events replies) hp, rebased_begun]
    exact (handOver_ignoresHistory _).andThen closeWrite_ignoresHistory c events replies (begun dc s)
  | active =>
    rw [logicalWrite_of_active dc p hp, logicalWrite_of_active dc p (s := s.rebased c events replies) hp]
    rfl

theorem logicalWrites_ignoresHistory (ws : List (Bool × List Byte)) : IgnoresHistory (logicalWrites ws) := by
  induction ws with
  | nil => exact fun _ _ _ _ => rfl
  | cons w ws ih => exact (logicalWrite_ignoresHistory w.1 w.2).andThen ih

section
variable (c : SessionConfig) (events : List Event) (replies : List Reply)

/-- An operation that ends as one of its parts gives its outcome after the other history. -/
theorem IgnoresHistory.finish {k : State → Ran} (h : IgnoresHistory k) {s t : State} (ht : (k s).finish = .next t) :
    (k (s.rebased c events replies)).finish = .next (t.rebased c events replies) := by
  rw [h]
  cases hk : k s with
  | done u => rw [hk] at ht; cases ht; exact congrArg _ (rebased_reply ..)
  | raised f u => rw [hk] at ht; cases ht; exact congrArg _ (rebased_reply ..)
  | unanswered => rw [hk] at ht; cases ht

theorem sessionShape_pre_rebased {i : Instr} (hi : isSessionOp i = true) (s : State) :
    (sessionShape i hi).pre (s.rebased c events replies) = ((sessionShape i hi).pre s).rebased c events replies := by
  cases i with
  | sessionReset =>
    cases h : s.params.hasResetLine <;> simp [sessionShape, pulseResetLine, State.rebased, State.emit, h]
  | sessionInitialize | setContrast | setInversion | setRotation | sleep | refresh => rfl
  | _ => cases hi

/-- What follows the writes may store into `CFG`, and what it stores may be a part of the `CFG` it finds. -/
theorem sessionShape_update_rebased {i : Instr} (hi : isSessionOp i = true) (s : State) : ∃ c',
    (sessionShape i hi).update (s.rebased c events replies) = ((sessionShape i hi).update s).rebased c' events replies := by
  cases i with
  | sessionReset | sessionInitialize | setContrast | setInversion | setRotation | sleep | refresh => exact ⟨_, rfl⟩
  | _ => cases hi

theorem exec_session_rebased {i : Instr} (hi : isSessionOp i = true) {s t : State} (hx : exec i s = .next t) :
    ∃ c', exec i (s.rebased c events replies) = .next (t.rebased c' events replies) := by
  have hpre := sessionShape_pre_rebased c events replies hi s
  have hwrites := logicalWrites_ignoresHistory ((sessionShape i hi).writes s.params.cat) c events replies
    ((sessionShape i hi).pre s)
  rw [← hpre] at hwrites
  cases sessionOutcome i hi s with
  | invalid hv he =>
    cases hx.symm.trans he
    refine ⟨c, (exec_session_of_invalid (sessionShape i hi) (s := s.rebased c events replies) hv).trans ?_⟩
    exact congrArg _ (rebased_reply ..)
  | open_write hv hp he =>
    cases hx.symm.trans he
    refine ⟨c, (exec_session_of_active (sessionShape i hi) (s := s.rebased c events replies) hv hp).trans ?_⟩
    rw [hpre]
    exact congrArg _ (rebased_reply c events replies { (sessionShape i hi).pre s with session := s.session } _)
  | completed hv hp u hw hf hu he =>
    cases hx.symm.trans he
    rw [hw] at hwrites
    obtain ⟨c', hc'⟩ := sessionShape_update_rebased c events replies hi u
    refine ⟨c', (exec_session_of_done (sessionShape i hi) (s := s.rebased c events replies) hv hwrites).trans ?_⟩
    rw [hc', rebased_reply]
  | failed hv hp err u hw hf hu he =>
    cases hx.symm.trans he
    rw [hw] at hwrites
    refine ⟨c, (exec_session_of_raised (sessionShape i hi) (s := s.rebased c events replies) hv hwrites).trans ?_⟩
    exact congrArg _ (rebased_reply c events replies { u with session := .unconfigured } _)
  | stuck hv hp hw he => cases hx.symm.trans he

end

/-- Settles O36: no part of an operation reads `CFG` or the history, and what a pseudo-operation stores into `CFG` is
all that can depend on it. -/
theorem outputIgnoresConfigurationAndHistory : Obligations.OutputIgnoresConfigurationAndHistory := by
  intro i s t c events replies hx
  rcases exec_kinds i s with ⟨b, hc, hb⟩ | ⟨dc, rfl⟩ | ⟨d, rfl⟩ | rfl | ⟨dc, p, rfl⟩ | hi
  · cases hx.symm.trans hb
    refine ⟨c, (exec_of_commandByte (s := s.rebased c events replies) hc).trans ?_⟩
    exact congrArg _ (rebased_reply ..)
  · exact ⟨c, (beginPort_ignoresHistory dc).finish c events replies hx⟩
  · exact ⟨c, (bytePort_ignoresHistory d).finish c events replies hx⟩
  · exact ⟨c, endPort_ignoresHistory.finish c events replies hx⟩
  · exact ⟨c, (logicalWrite_ignoresHistory dc p).finish c events replies hx⟩
  · exact exec_session_rebased c events replies hi hx

end Sys2Proof.Machine

namespace Sys2Proof.Machine

open Sys2Proof.Claims

/-! ### Misuse of a port (R96, R214) -/

/-- An unassigned port word is refused, and nothing changes but that the host has presented it. -/
theorem step_of_unassigned {s : State} {rest : List HostAction} {w : PortWord} {why : Unassigned}
    (hs : s.presented = .port w :: rest) (hd : decode w = .unassigned why) :
    step s = .next (returned { s with presented := rest } (.fault (.eProtocol (.unassigned why)))) :=
  step_of_ended (by simp only [fetch, hs, hd]; rfl)

theorem decodeFramer_unassigned {fp : BitVec 12}
    (h : (fp.getLsbD 11 && fp.getLsbD 10 || fp.getLsbD 11 && fp.getLsbD 9 || fp.getLsbD 10 && fp.getLsbD 9) = true) :
    decodeFramer fp = .unassigned (.framerStrobes fp) := by
  unfold decodeFramer
  split
  case h_5 => rfl
  -- In the other branches at most one strobe is set.
  all_goals simp_all only [Bool.and_true, Bool.and_false, Bool.or_false, Bool.false_eq_true]

/-- Settles O17: the phase decides a misuse of the framer and the decoder an unassigned word; a WRITE from IDLE opens the
write itself, so its only fault is a failed transmit. -/
theorem protocolViolationsChangeNothing : Obligations.ProtocolViolationsChangeNothing := by
  refine ⟨fun s dc d => ⟨fun hp => ?_, fun hp => ?_, fun hp => ?_⟩, fun s rest esel eparam he hs => ?_,
    fun s rest fp hfp hs => ?_, fun s t dc p hp hx => ?_⟩
  · rw [exec_beginWrite, beginPort_of_active dc hp]
    rfl
  · rw [exec_byte, bytePort_of_idle d hp]
    rfl
  · rw [exec_endWrite, endPort_of_idle hp]
    rfl
  · exact step_of_unassigned hs (decodeEncoder_unassigned he eparam)
  · exact step_of_unassigned hs (decodeFramer_unassigned hfp)
  · obtain ⟨hframed, hidle⟩ := logicalWrite_framed dc p hp
    rcases (hframed.and hidle).next hx with ⟨u, ⟨hu, hpu⟩, rfl⟩ | ⟨e, u, ⟨⟨hu, err, rfl, hpu, -⟩, -⟩, rfl⟩
    · exact ⟨hpu, fun cause => by simp [hu.replies]⟩
    · exact ⟨hpu, fun cause => by simp [hu.replies]⟩

/-! ### What an operation returns (R210) -/

/-- The outcome of a pseudo-operation: E_INVALID_STATE only where the table of R182 excludes it, and E_TRANSPORT only with
the session unconfigured, `CFG` as before and the block IDLE and clear (R213, R219, R221). -/
theorem exec_session_replies {i : Instr} (hi : isSessionOp i = true) {s t : State} (hx : exec i s = .next t) :
    ∃ r, t.replies = s.replies ++ [r] ∧
      (r = .fault (.eInvalidState (sessionShape i hi).op s.session) ∧ validIn (sessionShape i hi).op s.session = false ∨
       r = .fault (.eProtocol .beginWhileActive) ∨
       r = .done ∨
       (∃ err, r = .fault (.eTransport err)) ∧ t.session = .unconfigured ∧ t.cfg = s.cfg ∧ t.phase = .idle ∧ t.cnt = 0 ∧
         t.buf = Octets.zero ∧ t.sel = false) := by
  have hpre := SessionShape.pre_replies (sessionShape i hi) s
  have hwrites : ∀ {u}, PortFrame ((sessionShape i hi).pre s) u → u.replies = s.replies := fun hu => hu.replies.trans hpre
  cases sessionOutcome i hi s with
  | invalid hv he => cases hx.symm.trans he; exact ⟨_, rfl, .inl ⟨rfl, hv⟩⟩
  | open_write hv hp he => cases hx.symm.trans he; exact ⟨_, congrArg (· ++ _) hpre, .inr (.inl rfl)⟩
  | completed hv hp u hw hf hu he =>
    cases hx.symm.trans he
    exact ⟨_, congrArg (· ++ _) ((SessionShape.update_replies _ u).trans (hwrites hf)), .inr (.inr (.inl rfl))⟩
  | failed hv hp err u hw hf hu he =>
    cases hx.symm.trans he
    have hr : u.replies = s.replies := hwrites hf
    exact ⟨_, congrArg (· ++ _) hr,
      .inr (.inr (.inr ⟨⟨err, rfl⟩, rfl, hf.cfg.trans (SessionShape.pre_cfg _ s), hu⟩))⟩
  | stuck hv hp hw he => cases hx.symm.trans he

/-- An operation of the block itself does not see the session (R28). -/
theorem exec_block_replies_ne {i : Instr} (hi : isSessionOp i = false) {s t : State} (hx : exec i s = .next t)
    (op : SessionOp) (x : Session) : t.replies ≠ s.replies ++ [.fault (.eInvalidState op x)] := by
  rcases exec_block i hi s with ⟨b, hb⟩ | ⟨r, hr, ⟨cause, rfl⟩ | hf⟩
  · cases hx.symm.trans hb
    simp
  · cases hx.symm.trans hr
    simp
  · rcases hf.next (hr.symm.trans hx) with ⟨u, hu, rfl⟩ | ⟨e, u, ⟨hu, err, rfl, -⟩, rfl⟩
    · simp [hu.replies]
    · simp [hu.replies]

/-- `reset` is valid in every session state (R182). -/
theorem exec_sessionReset_replies_ne {s t : State} (hx : exec .sessionReset s = .next t) (op : SessionOp) (x : Session) :
    t.replies ≠ s.replies ++ [.fault (.eInvalidState op x)] := by
  obtain ⟨r, hr, ⟨-, hv⟩ | rfl | rfl | ⟨⟨err, rfl⟩, -⟩⟩ := exec_session_replies rfl hx
  · cases hv
  · simp [hr]
  · simp [hr]
  · simp [hr]

/-- Settles O24: a pseudo-operation replies so exactly where the table excludes it; the table allows `reset` everywhere. -/
theorem invalidSessionStateIsRefused : Obligations.InvalidSessionStateIsRefused := by
  refine ⟨fun s => ⟨fun hs rotation inverse contrast ratio => ?_, fun hs => ?_, fun hs enable => ?_⟩,
    fun i s t op x hi hx => ?_⟩
  · refine exec_session_of_invalid (sessionShape (.sessionInitialize rotation inverse contrast ratio) rfl) ?_
    rcases hs with h | h <;> rw [h] <;> rfl
  · have hv : (s.session == .operating) = false := by rcases hs with h | h | h <;> rw [h] <;> rfl
    exact ⟨fun level => exec_session_of_invalid (sessionShape (.setContrast level) rfl) hv,
      fun flag => exec_session_of_invalid (sessionShape (.setInversion flag) rfl) hv,
      fun rotation => exec_session_of_invalid (sessionShape (.setRotation rotation) rfl) hv,
      fun fb => exec_session_of_invalid (sessionShape (.refresh fb) rfl) hv⟩
  · refine exec_session_of_invalid (sessionShape (.sleep enable) rfl) ?_
    rcases hs with h | h <;> rw [h] <;> rfl
  · rcases hi with rfl | hi
    · exact exec_sessionReset_replies_ne hx op x
    · exact exec_block_replies_ne hi hx op x

/-! ### A failed transmit and the way back (R219, R221, R222) -/

/-- Settles O20: the groups handed over are those of the frame, up to the one that fails. -/
theorem writeIsAbandonedAtTheFailedGroup : Obligations.WriteIsAbandonedAtTheFailedGroup := by
  intro s dc p n u t err hp hn hu hf
  refine ⟨failTail s, failTail_cases s, ?_⟩
  rw [exec_write, logicalWrite_of_fail dc p n hp hn hu hf]
  rfl

/-- Settles O34: of the outcomes of a pseudo-operation only that of a failed transmit replies so. -/
theorem transportFailureUnconfiguresSession : Obligations.TransportFailureUnconfiguresSession := by
  intro i s t err hi hx ht
  obtain ⟨r, hr, ⟨rfl, -⟩ | rfl | rfl | ⟨-, hclear⟩⟩ := exec_session_replies hi hx
  · simp [hr] at ht
  · simp [hr] at ht
  · simp [hr] at ht
  · exact hclear

/-- An unconfigured session allows `reset` alone (R182). -/
theorem validIn_unconfigured {i : Instr} (hi : isSessionOp i = true) (h : i ≠ .sessionReset) :
    validIn (sessionShape i hi).op .unconfigured = false := by
  cases i with
  | sessionReset => exact absurd rfl h
  | sessionInitialize | setContrast | setInversion | setRotation | sleep | refresh => rfl
  | _ => cases hi

/-- A `reset` presented while IDLE and answered ok (R184). -/
theorem exec_sessionReset_of_ok {s : State} {t : Transport} (hs : s.SessionSettled) (hp : s.phase = .idle)
    (ht : s.transport.next = some (.ok, t)) : ∃ u, exec .sessionReset s = .next u ∧ u.session = .reset ∧
      u.phase = .idle ∧ u.transport = t ∧ u.replies = s.replies ++ [.done] := by
  have hvalid : s.session ∈ [Session.unconfigured, .reset, .operating, .sleeping] := by
    cases h : s.session <;> simp [State.SessionSettled, h] at hs ⊢
  obtain ⟨-, -, hidle⟩ := resetSendsSoftwareReset s hs
  obtain ⟨hok, -⟩ := hidle hvalid hp _ rfl
  exact ⟨_, hok t ht, rfl, rfl, rfl, rfl⟩

/-- The initialization presented after `reset` while IDLE, both of its groups answered ok (R186). -/
theorem exec_sessionInitialize_of_oks (rotation : Nat) (inverse : Bool) (contrast ratio : Nat) {s : State} {t : Transport}
    (hs : s.session = .reset) (hp : s.phase = .idle) (ht : s.transport.afterOks 2 = some t) :
    ∃ u, exec (.sessionInitialize rotation inverse contrast ratio) s = .next u ∧ u.session = .operating ∧
      u.phase = .idle ∧ u.replies = s.replies ++ [.done] ∧
      u.cfg = { rotation := if rotation = 180 then .deg180 else .deg0, inverse := inverse,
                contrast := BitVec.ofNat 5 contrast, ratio := BitVec.ofNat 3 ratio } := by
  have hsettled : s.SessionSettled := by simp [State.SessionSettled, hs]
  obtain ⟨-, -, hidle⟩ := initializeSendsNineCommands s rotation inverse contrast ratio _ _ hsettled rfl rfl
  obtain ⟨hok, -⟩ := hidle (.inl hs) hp
  obtain ⟨-, hx⟩ := hok t ht
  exact ⟨_, hx, rfl, rfl, rfl, rfl⟩

/-- Settles O35: the failure leaves the session unconfigured, where `reset` is all that is valid, and the block IDLE, so
that `reset` and the initialization perform their one and two groups. -/
theorem recoveryIsResetThenInitialize : Obligations.RecoveryIsResetThenInitialize := by
  intro i s f err hi hx hr
  obtain ⟨hsession, -, hidle, -⟩ := transportFailureUnconfiguresSession i s f err hi hx hr
  refine ⟨fun j hj hne => ⟨(sessionShape j hj).op, ?_⟩, fun t rotation inverse contrast ratio ht => ?_⟩
  · rw [← hsession]
    exact exec_session_of_invalid (sessionShape j hj) (hsession ▸ validIn_unconfigured hj hne)
  · obtain ⟨v, hv, ht⟩ := (Transport.afterOks_succ_eq_some_iff 2 _ _).1 ht
    have hsettled : f.SessionSettled := by simp [State.SessionSettled, hsession]
    obtain ⟨u, hu, hus, hup, rfl, hur⟩ := exec_sessionReset_of_ok hsettled hidle hv
    obtain ⟨w, hw, hws, hwp, hwr, hwc⟩ := exec_sessionInitialize_of_oks rotation inverse contrast ratio hus hup ht
    exact ⟨u, w, hu, hus, hw, hws, hwp, by simp [hwr, hur], hwc⟩

/-! ### The reset line (R228) -/

theorem resetLineLevel_concat (trace : List Event) (level : Level) :
    resetLineLevel (trace ++ [.resetLine level]) = some level := by
  simp [resetLineLevel]

theorem resetLineLevel_concat_of_ne (trace : List Event) {e : Event} (h : ∀ level, .resetLine level ≠ e) :
    resetLineLevel (trace ++ [e]) = resetLineLevel trace := by
  cases e with
  | resetLine level => exact absurd rfl (h level)
  | select | deselect | tx | wait => simp [resetLineLevel]

/-- `trace'` continues `trace` without a reset-line event. -/
def LeavesResetLine (trace trace' : List Event) : Prop :=
  ∃ events, trace' = trace ++ events ∧ ∀ level, Event.resetLine level ∉ events

theorem LeavesResetLine.refl (trace : List Event) : LeavesResetLine trace trace := ⟨[], by simp, by simp⟩

theorem LeavesResetLine.level_eq {trace trace' : List Event} (h : LeavesResetLine trace trace') :
    resetLineLevel trace' = resetLineLevel trace := by
  obtain ⟨events, rfl, h⟩ := h
  induction events using List.reverseRecOn with
  | nil => simp
  | append_singleton events e ih =>
    have hne : ∀ level, Event.resetLine level ≠ e := fun level he => h level (by simp [he])
    rw [← List.append_assoc, resetLineLevel_concat_of_ne _ hne]
    exact ih fun level hm => h level (List.mem_append_left _ hm)

/-- The writes of a pseudo-operation leave the reset line as what precedes them left it; refused by the table, the
operation does not get that far. -/
theorem exec_session_leavesResetLine {i : Instr} (hi : isSessionOp i = true) {s t : State} (hx : exec i s = .next t) :
    LeavesResetLine ((sessionShape i hi).pre s).trace t.trace ∨
      validIn (sessionShape i hi).op s.session = false ∧ t.trace = s.trace := by
  cases sessionOutcome i hi s with
  | invalid hv he => cases hx.symm.trans he; exact .inr ⟨hv, rfl⟩
  | open_write hv hp he => cases hx.symm.trans he; exact .inl (.refl _)
  | completed hv hp u hw hf hu he =>
    cases hx.symm.trans he
    refine .inl ?_
    rw [reply_trace, SessionShape.update_trace]
    exact hf.trace
  | failed hv hp err u hw hf hu he => cases hx.symm.trans he; exact .inl hf.trace
  | stuck hv hp hw he => cases hx.symm.trans he

theorem sessionShape_pre_trace {i : Instr} (hi : isSessionOp i = true) {s : State}
    (h : i ≠ .sessionReset ∨ s.params.hasResetLine = false) : ((sessionShape i hi).pre s).trace = s.trace := by
  cases i with
  | sessionReset =>
    have hline : s.params.hasResetLine = false := h.resolve_left fun hne => hne rfl
    simp [sessionShape, hline]
  | sessionInitialize | setContrast | setInversion | setRotation | sleep | refresh => rfl
  | _ => cases hi

theorem exec_leavesResetLine {i : Instr} {s t : State} (hx : exec i s = .next t)
    (h : i ≠ .sessionReset ∨ s.params.hasResetLine = false) : LeavesResetLine s.trace t.trace := by
  cases hi : isSessionOp i with
  | false =>
    obtain ⟨u, r, hu, rfl⟩ := exec_block_next hi hx
    exact hu.trace
  | true =>
    rcases exec_session_leavesResetLine hi hx with ht | ⟨-, ht⟩
    · rwa [sessionShape_pre_trace hi h] at ht
    · exact ht ▸ .refl _

/-- The pulse ends with the line high (R184). -/
theorem resetLineLevel_pulse {s : State} (h : s.params.hasResetLine = true) :
    resetLineLevel (pulseResetLine s).trace = some .high := by
  simp [resetLineLevel, h]

/-- Settles O51: the table of R182 refuses `reset` nowhere, so it pulses the line; nothing after the pulse, and no other
operation, drives it. -/
theorem resetLineMovesOnlyInReset : Obligations.ResetLineMovesOnlyInReset := by
  intro i s t hx
  refine ⟨?_, fun h => ⟨exec_leavesResetLine hx h, (exec_leavesResetLine hx h).level_eq⟩⟩
  rintro rfl hline
  rcases exec_session_leavesResetLine rfl hx with ht | ⟨hv, -⟩
  · exact ht.level_eq.trans (resetLineLevel_pulse hline)
  · cases hv

end Sys2Proof.Machine

namespace Sys2Proof.Machine

/-! ### Block reset and session construction (R240, R242) -/

theorem step_of_blockReset {s : State} {rest : List HostAction} (h : s.presented = .blockReset :: rest) :
    step s = .next (blockReset { s with presented := rest }) :=
  step_of_ended (by simp [fetch, h])

theorem step_of_constructSession {s : State} {rest : List HostAction} (h : s.presented = .constructSession :: rest) :
    step s = .next (constructSession { s with presented := rest }) :=
  step_of_ended (by simp [fetch, h])

/-- Settles O40: each field of `State.resetWith` is the one R240 and R242 ask for, the buffer octet by octet. -/
theorem resetStateIsAsSpecified : Obligations.ResetStateIsAsSpecified := by
  refine ⟨fun p => ⟨rfl, rfl, rfl, fun k => ?_, rfl, rfl, rfl⟩, rfl⟩
  simp [State.resetWith, Octets.zero]

/-- Settles O41: the free value taken for `DC` is the one left open. -/
theorem blockResetClearsTheFramer : Obligations.BlockResetClearsTheFramer :=
  fun s _ h => ⟨Config.dcAfterReset s.freeCount, step_of_blockReset h⟩

/-- Settles O42: the free value taken for `CFG` is the one left open. -/
theorem sessionConstructionUnconfigures : Obligations.SessionConstructionUnconfigures :=
  fun s _ h => ⟨Config.cfgAtConstruction s.freeCount, step_of_constructSession h⟩

/-! ### Chip-select along the trace (R226, R250) -/

/-- The level of chip-select after an event (R226). -/
def chipSelectAfter (level : Option Level) : Event → Option Level
  | .select => some .low
  | .deselect => some .high
  | .tx _ | .resetLine _ | .wait _ => level

theorem chipSelectLevel_eq_foldl (trace : List Event) : chipSelectLevel trace = trace.foldl chipSelectAfter none := rfl

theorem chipSelectLevel_append (trace events : List Event) :
    chipSelectLevel (trace ++ events) = events.foldl chipSelectAfter (chipSelectLevel trace) := by
  simp only [chipSelectLevel_eq_foldl, List.foldl_append]

/-- Later groups are judged by the level the events before them leave. -/
theorem txWhileSelected_append (level : Option Level) (trace events : List Event) :
    txWhileSelected (level == some .low) (trace ++ events) =
      (txWhileSelected (level == some .low) trace &&
        txWhileSelected (trace.foldl chipSelectAfter level == some .low) events) := by
  induction trace generalizing level with
  | nil => rfl
  | cons e trace ih =>
    cases e with
    | select => exact ih (some .low)
    | deselect => exact ih (some .high)
    | tx g => simp [txWhileSelected, ih, chipSelectAfter, Bool.and_assoc]
    | resetLine | wait => exact ih level

theorem txWhileSelected_mono {b b' : Bool} (hb : b = true → b' = true) {events : List Event}
    (h : txWhileSelected b events = true) : txWhileSelected b' events = true := by
  induction events generalizing b b' with
  | nil => rfl
  | cons e events ih =>
    cases e with
    | select | deselect => exact h
    | tx g =>
      obtain ⟨hsel, hrest⟩ := Bool.and_eq_true_iff.1 h
      exact Bool.and_eq_true_iff.2 ⟨hb hsel, ih hb hrest⟩
    | resetLine | wait => exact ih hb h

/-! ### The parts of an operation keep the discipline of chip-select (R24, R250) -/

/-- Events after which `SEL` tells the truth keep the discipline, when no group among them leaves with `SEL` at 0. -/
theorem State.SelectInv.append {s t : State} (h : s.SelectInv) {events : List Event}
    (htrace : t.trace = s.trace ++ events) (htx : txWhileSelected s.sel events = true)
    (hlevel : t.sel = true → chipSelectLevel (s.trace ++ events) = some .low) : t.SelectInv where
  tx_selected := by
    have hlow : s.sel = true → (chipSelectLevel s.trace == some .low) = true := fun hs => by simp [h.sel_asserted hs]
    have hlater := txWhileSelected_mono hlow htx
    rw [chipSelectLevel_eq_foldl] at hlater
    rw [htrace]
    exact (txWhileSelected_append none s.trace events).trans (Bool.and_eq_true_iff.2 ⟨h.tx_selected, hlater⟩)
  sel_asserted ht := htrace ▸ hlevel ht

/-- The discipline speaks of `SEL` and the trace alone. -/
theorem State.SelectInv.congr {s t : State} (h : s.SelectInv) (hsel : t.sel = s.sel) (htrace : t.trace = s.trace) :
    t.SelectInv :=
  ⟨htrace ▸ h.tx_selected, fun ht => htrace ▸ h.sel_asserted (hsel ▸ ht)⟩

theorem State.SelectInv.assertSelect {s : State} (h : s.SelectInv) : s.assertSelect.SelectInv := by
  refine h.append (assertSelect_trace s) ?_ fun _ => ?_
  · cases s.sel <;> rfl
  · cases hs : s.sel with
    | false => simp [chipSelectLevel_append, chipSelectAfter]
    | true => simpa using h.sel_asserted hs

theorem begun_selectInv (dc : Bool) {s : State} (h : s.SelectInv) : (begun dc s).SelectInv := by
  refine h.append rfl ?_ fun hs => ?_
  · cases s.params.emptyWriteSelects <;> rfl
  · have hselects : s.params.emptyWriteSelects = true := hs
    simp [hselects, chipSelectLevel_append, chipSelectAfter]

/-- A group that leaves with `SEL` at 1 leaves with the line asserted, whatever the transport answers. -/
theorem transmitGroup_keepsSelectInv {s : State} (h : s.SelectInv) (hs : s.sel = true) :
    (transmitGroup s).Leaves State.SelectInv := by
  refine transmitGroup_sat (fun t => h.append rfl ?_ fun _ => ?_) fun err t => h.append rfl ?_ nofun
  · simp [txWhileSelected, hs]
  · simpa [chipSelectLevel_append, chipSelectAfter] using h.sel_asserted hs
  · rcases failTail_cases s with ht | ht <;> simp [txWhileSelected, hs, ht]

theorem bytePort_keepsSelectInv (b : Byte) {s : State} (h : s.SelectInv) : (bytePort b s).Leaves State.SelectInv := by
  cases hp : s.phase with
  | idle => rw [bytePort_of_idle b hp]; exact h
  | active =>
    rw [bytePort_of_active b hp]
    by_cases hc : s.assertSelect.cnt.val ≤ 6
    · rw [packByte_of_le b hc]
      exact h.assertSelect.congr rfl rfl
    · rw [packByte_of_last b (cnt_eq_seven hc)]
      exact transmitGroup_keepsSelectInv (h.assertSelect.congr rfl rfl) (assertSelect_sel s)

theorem beginPort_keepsSelectInv (dc : Bool) {s : State} (h : s.SelectInv) : (beginPort dc s).Leaves State.SelectInv := by
  cases hp : s.phase with
  | idle => rw [beginPort_of_idle dc hp]; exact begun_selectInv dc h
  | active => rw [beginPort_of_active dc hp]; exact h

theorem closeWrite_keepsSelectInv {s : State} (h : s.SelectInv) : (closeWrite s).Leaves State.SelectInv := by
  refine h.append (releaseSelect_trace s) ?_ fun ht => ?_
  · cases s.sel <;> rfl
  · cases (releaseSelect_sel s).symm.trans ht

/-- END hands over the padded group with `SEL` at 1: the block's invariants allow no partial group without it. -/
theorem endPort_keepsSelectInv {s : State} (hb : s.BlockInv) (h : s.SelectInv) :
    (endPort s).Leaves State.SelectInv := by
  cases hp : s.phase with
  | idle => rw [endPort_of_idle hp]; exact h
  | active =>
    by_cases hc : s.cnt = 0
    · rw [endPort_of_group_start hp hc]
      exact closeWrite_keepsSelectInv h
    · rw [endPort_of_partial_group hp hc]
      refine Ran.Leaves.andThen ?_ fun _ => closeWrite_keepsSelectInv
      exact transmitGroup_keepsSelectInv (h.congr rfl rfl) (hb.open_selected hc)

theorem handOver_keepsSelectInv (gs : List Octets) {s : State} (h : s.SelectInv) :
    (handOver gs s).Leaves State.SelectInv := by
  induction gs generalizing s with
  | nil => exact h
  | cons g gs ih =>
    refine Ran.Leaves.andThen ?_ fun _ => ih
    exact transmitGroup_keepsSelectInv (h.assertSelect.congr rfl rfl) (assertSelect_sel s)

theorem logicalWrite_keepsSelectInv (dc : Bool) (p : List Byte) {s : State} (h : s.SelectInv) :
    (logicalWrite dc p s).Leaves State.SelectInv := by
  cases hp : s.phase with
  | idle =>
    rw [logicalWrite_of_idle dc p hp]
    exact (handOver_keepsSelectInv _ (begun_selectInv dc h)).andThen fun _ => closeWrite_keepsSelectInv
  | active => rw [logicalWrite_of_active dc p hp]; exact h

theorem logicalWrites_keepsSelectInv (ws : List (Bool × List Byte)) {s : State} (h : s.SelectInv) :
    (logicalWrites ws s).Leaves State.SelectInv := by
  induction ws generalizing s with
  | nil => exact h
  | cons w ws ih => exact (logicalWrite_keepsSelectInv w.1 w.2 h).andThen fun _ => ih

/-! ### Every operation keeps the discipline of chip-select -/

/-- What precedes the writes of a pseudo-operation does not drive chip-select: reset's pulse is on another line. -/
theorem sessionShape_pre_selectInv {i : Instr} (hi : isSessionOp i = true) {s : State} (h : s.SelectInv) :
    State.SelectInv ((sessionShape i hi).pre s) := by
  cases i with
  | sessionReset =>
    refine h.append (pulseResetLine_trace s) ?_ fun ht => ?_
    · cases s.params.hasResetLine <;> rfl
    · have hlow := h.sel_asserted ((pulseResetLine_sel s).symm.trans ht)
      cases hline : s.params.hasResetLine <;> simp [chipSelectLevel_append, chipSelectAfter, hlow]
  | sessionInitialize | setContrast | setInversion | setRotation | sleep | refresh => exact h.congr rfl rfl
  | _ => cases hi

theorem exec_session_keepsSelectInv {i : Instr} (hi : isSessionOp i = true) {s t : State} (h : s.SelectInv)
    (hx : exec i s = .next t) : t.SelectInv := by
  have hpre := sessionShape_pre_selectInv hi h
  have hw := logicalWrites_keepsSelectInv ((sessionShape i hi).writes s.params.cat) hpre
  cases sessionOutcome i hi s with
  | invalid hv he => cases hx.symm.trans he; exact h.congr rfl rfl
  | open_write hv hp he => cases hx.symm.trans he; exact hpre.congr rfl rfl
  | completed hv hp u hr hf hu he =>
    cases hx.symm.trans he
    rw [hr] at hw
    exact State.SelectInv.congr hw (SessionShape.update_sameFramer _ u).sel (SessionShape.update_trace _ u)
  | failed hv hp err u hr hf hu he =>
    cases hx.symm.trans he
    rw [hr] at hw
    exact State.SelectInv.congr hw rfl rfl
  | stuck hv hp hr he => cases hx.symm.trans he

theorem State.SelectInv.reply {s : State} (r : Reply) (h : s.SelectInv) : (s.reply r).SelectInv := h.congr rfl rfl

theorem exec_keepsSelectInv (i : Instr) {s t : State} (hb : s.BlockInv) (h : s.SelectInv) (hx : exec i s = .next t) :
    t.SelectInv := by
  rcases exec_kinds i s with ⟨b, -, hc⟩ | ⟨dc, rfl⟩ | ⟨b, rfl⟩ | rfl | ⟨dc, p, rfl⟩ | hi
  · cases hx.symm.trans hc
    exact h.reply _
  · exact (beginPort_keepsSelectInv dc h).next (fun _ => State.SelectInv.reply) hx
  · exact (bytePort_keepsSelectInv b h).next (fun _ => State.SelectInv.reply) hx
  · exact (endPort_keepsSelectInv hb h).next (fun _ => State.SelectInv.reply) hx
  · exact (logicalWrite_keepsSelectInv dc p h).next (fun _ => State.SelectInv.reply) hx
  · exact exec_session_keepsSelectInv hi h hx

/-- Settles O45: a group leaves only with `SEL` at 1, and `SEL` goes to 1 only with a Select; the invariants of the
block see to it when END pads a partial group. -/
theorem stepKeepsSelectDiscipline : Obligations.StepKeepsSelectDiscipline := by
  intro s t hblock hselect hs
  have hboth : t.BlockInv ∧ t.SelectInv :=
    step_preserves (P := fun u => u.BlockInv ∧ u.SelectInv)
      (fun i u v ⟨hb, h⟩ hx => ⟨exec_keepsBlockInv i u v hb hx, exec_keepsSelectInv i hb h hx⟩)
      (fun _ _ ⟨hb, h⟩ => ⟨hb.of_sameFramer ⟨rfl, rfl, rfl, rfl, rfl⟩, h.congr rfl rfl⟩)
      (fun _ r ⟨hb, h⟩ => ⟨hb.reply r, h.reply r⟩)
      (fun _ ⟨_, h⟩ => ⟨State.blockInv_of_start rfl rfl fun _ => rfl, h.tx_selected, nofun⟩)
      (fun _ ⟨hb, h⟩ => ⟨hb.of_sameFramer ⟨rfl, rfl, rfl, rfl, rfl⟩, h.congr rfl rfl⟩) ⟨hblock, hselect⟩ hs
  exact hboth.2

end Sys2Proof.Machine
